-- ==== Sys2Proof/Word.lean ====
section
/-! DEFINITION. The word types of the block: a word is 32 bits, a byte 8 bits (R8), a raw reading 16 bits (R7). -/

namespace Sys2Proof

/-- "A word is 32 bits" (00_scope.md R8): a command word, the RES register, the value of a register view. -/
abbrev Word := BitVec 32

/-- "A byte is 8 bits" (00_scope.md R8): a payload byte, a checksum byte, the CRC register (10_state.md R23). -/
abbrev Byte := BitVec 8

/-- The 16-bit unsigned raw reading of the sensor (00_scope.md R7, 30_encoding.md R63). -/
abbrev Raw := BitVec 16

end Sys2Proof
end

