-- ==== Sys2Proof/Syntax.lean ====
section
/-! DEFINITION. The ten commands of 30_encoding.md R64, one constructor per row of spec/opcode_table.json. Operands carry
their width in their type (R62, R63), so a field of the wrong width cannot be written down. -/

namespace Sys2Proof

/-- A defined command (30_encoding.md R64). -/
inductive Instr where
  /-- `nop` (42_control.md R120). -/
  | nop
  /-- `crc.init` (40_crc.md R83). -/
  | crcInit
  /-- `crc.feed A` (40_crc.md R84). -/
  | crcFeed (a : Byte)
  /-- `crc.check C` (40_crc.md R85). -/
  | crcCheck (c : Byte)
  /-- `crc.val2 A, B, C` (40_crc.md R86). -/
  | crcVal2 (a b c : Byte)
  /-- `scale.t.f32 RAW` (41_scale.md R104). -/
  | scaleTF32 (raw : Raw)
  /-- `scale.t.fix RAW` (41_scale.md R105). -/
  | scaleTFix (raw : Raw)
  /-- `scale.rh.f32 RAW` (41_scale.md R106). -/
  | scaleRhF32 (raw : Raw)
  /-- `scale.rh.fix RAW` (41_scale.md R107). -/
  | scaleRhFix (raw : Raw)
  /-- `clr.status` (42_control.md R121). -/
  | clrStatus
  deriving DecidableEq, Repr

end Sys2Proof
end

