-- ==== Sys2Proof/WellFormed.lean ====
section
/-! DEFINITION. Well-formedness of what a programmer writes. An `Instr` needs no check: each of its fields has exactly the
width of its field of format W (30_encoding.md R60, R62), so every `Instr` is well formed. A line of the assembler carries
numbers of any size, and "an operand out of range is an assembly error, never truncated" (30_encoding.md R70); that is the
check here. (The check on a 32-bit word, R65, stands beside the decoder.) -/

namespace Sys2Proof

/-- One line of the assembler (30_encoding.md R70), the pseudo-instructions of R71 included, operands as written. -/
inductive AsmLine where
  | nop
  | crcInit
  | crcFeed (a : Nat)
  | crcCheck (c : Nat)
  | crcVal2 (a b c : Nat)
  | scaleTF32 (raw : Nat)
  | scaleTFix (raw : Nat)
  | scaleRhF32 (raw : Nat)
  | scaleRhFix (raw : Nat)
  | clrStatus
  /-- `.word w`: the raw word, reserved words included (R70). -/
  | rawWord (w : Nat)
  /-- `scale.t RAW` (R71). -/
  | scaleT (raw : Nat)
  /-- `scale.rh RAW` (R71). -/
  | scaleRh (raw : Nat)
  /-- `crc.val1 A, C` (R71). -/
  | crcVal1 (a c : Nat)
  /-- `crc.valn d0..d(n-1), C`, n ≥ 0 (R71). -/
  | crcValn (ds : List Nat) (c : Nat)
  /-- `crc.frame d0, d1, C` (R71). -/
  | crcFrame (d0 d1 c : Nat)
  deriving DecidableEq, Repr

/-- "a byte must be at most 0xFF" (30_encoding.md R70). -/
def byteInRange (n : Nat) : Bool := n ≤ 0xFF

/-- "RAW at most 0xFFFF" (30_encoding.md R70). -/
def rawInRange (n : Nat) : Bool := n ≤ 0xFFFF

/-- `.word` emits one 32-bit word (30_encoding.md R70, R60). -/
def wordInRange (n : Nat) : Bool := n ≤ 0xFFFFFFFF

/-- The operands of a line are in range (30_encoding.md R70); a line that is not is an assembly error. -/
def AsmLine.wf : AsmLine → Bool
  | .nop => true
  | .crcInit => true
  | .crcFeed a => byteInRange a
  | .crcCheck c => byteInRange c
  | .crcVal2 a b c => byteInRange a && byteInRange b && byteInRange c
  | .scaleTF32 raw => rawInRange raw
  | .scaleTFix raw => rawInRange raw
  | .scaleRhF32 raw => rawInRange raw
  | .scaleRhFix raw => rawInRange raw
  | .clrStatus => true
  | .rawWord w => wordInRange w
  | .scaleT raw => rawInRange raw
  | .scaleRh raw => rawInRange raw
  | .crcVal1 a c => byteInRange a && byteInRange c
  | .crcValn ds c => ds.all byteInRange && byteInRange c
  | .crcFrame d0 d1 c => byteInRange d0 && byteInRange d1 && byteInRange c

end Sys2Proof
end

