-- ==== Sys2Proof/Decode.lean ====
section
/-! DEFINITION. Format W (30_encoding.md R60, R61), the total decoder (R68), which rejects by name, and the encoder (R64, R70). -/

namespace Sys2Proof

/-- `OP = w[31:28]` (30_encoding.md R61). -/
def fieldOp (w : Word) : BitVec 4 := w.extractLsb' 28 4

/-- `RSV = w[27:25]` (30_encoding.md R61). -/
def fieldRsv (w : Word) : BitVec 3 := w.extractLsb' 25 3

/-- `F = w[24]` (30_encoding.md R61). -/
def fieldF (w : Word) : BitVec 1 := w.extractLsb' 24 1

/-- `A = w[23:16]` (30_encoding.md R61). -/
def fieldA (w : Word) : Byte := w.extractLsb' 16 8

/-- `B = w[15:8]` (30_encoding.md R61). -/
def fieldB (w : Word) : Byte := w.extractLsb' 8 8

/-- `C = w[7:0]` (30_encoding.md R61). -/
def fieldC (w : Word) : Byte := w.extractLsb' 0 8

/-- `RAW = w[23:8]` (30_encoding.md R63). -/
def fieldRaw (w : Word) : Raw := w.extractLsb' 8 16

/-- `RSVMASK(OP)` of a defined opcode (30_encoding.md R65). A reserved opcode has none: its row here is never consulted. -/
def rsvMask (op : BitVec 4) : Word :=
  match op.toNat with
  | 0x0 => 0x0FFFFFFF
  | 0x1 => 0x0FFFFFFF
  | 0x2 => 0x0F00FFFF
  | 0x3 => 0x0FFFFF00
  | 0x4 => 0x0F000000
  | 0x5 => 0x0E0000FF
  | 0x6 => 0x0E0000FF
  | 0x7 => 0x0FFFFFFF
  | _ => 0x00000000

/-- The causes of a command error (60_exceptions.md R132). -/
inductive CmdCause where
  /-- RESERVED_OP: `w[31:28]` in 0x8..0xF. -/
  | reservedOp
  /-- RESERVED_FIELD: a defined OP with a reserved bit set. -/
  | reservedField
  deriving DecidableEq, Repr

/-- The ECAUSE code of a cause (10_state.md R27, 60_exceptions.md R132). -/
def CmdCause.code : CmdCause → BitVec 4
  | .reservedOp => 0x1
  | .reservedField => 0x2

/-- "Every word yields exactly one of: one of the ten commands, or a command error" (30_encoding.md R68). -/
inductive Decoded where
  | command (i : Instr)
  | cmdError (cause : CmdCause)
  deriving DecidableEq, Repr

/-- The decoder, step by step as 30_encoding.md R68 writes it: the opcode check, then the reserved-field check, then the case
on OP. -/
def decode (w : Word) : Decoded :=
  if 0x8#4 ≤ fieldOp w then .cmdError .reservedOp
  else if w &&& rsvMask (fieldOp w) ≠ 0 then .cmdError .reservedField
  else match (fieldOp w).toNat with
    | 0x0 => .command .nop
    | 0x1 => .command .crcInit
    | 0x2 => .command (.crcFeed (fieldA w))
    | 0x3 => .command (.crcCheck (fieldC w))
    | 0x4 => .command (.crcVal2 (fieldA w) (fieldB w) (fieldC w))
    | 0x5 => if fieldF w = 0 then .command (.scaleTF32 (fieldRaw w)) else .command (.scaleTFix (fieldRaw w))
    | 0x6 => if fieldF w = 0 then .command (.scaleRhF32 (fieldRaw w)) else .command (.scaleRhFix (fieldRaw w))
    | 0x7 => .command .clrStatus
    | _ => .cmdError .reservedOp

/-- A word that selects a defined command: a defined OP and no reserved bit set (30_encoding.md R65). -/
def wellFormedWord (w : Word) : Bool := fieldOp w < 0x8#4 && w &&& rsvMask (fieldOp w) = 0

/-- Format W put together, OP in the high bits (30_encoding.md R60). -/
def packW (op : BitVec 4) (rsv : BitVec 3) (f : BitVec 1) (a b c : Byte) : Word := op ++ rsv ++ f ++ a ++ b ++ c

/-- The word of a command (30_encoding.md R64, R70): its OP and F, its operands in their fields, zero elsewhere. The high
byte of RAW is field A and the low byte field B (R63). -/
def encode : Instr → Word
  | .nop => packW 0x0 0 0 0 0 0
  | .crcInit => packW 0x1 0 0 0 0 0
  | .crcFeed a => packW 0x2 0 0 a 0 0
  | .crcCheck c => packW 0x3 0 0 0 0 c
  | .crcVal2 a b c => packW 0x4 0 0 a b c
  | .scaleTF32 raw => packW 0x5 0 0 (raw.extractLsb' 8 8) (raw.extractLsb' 0 8) 0
  | .scaleTFix raw => packW 0x5 0 1 (raw.extractLsb' 8 8) (raw.extractLsb' 0 8) 0
  | .scaleRhF32 raw => packW 0x6 0 0 (raw.extractLsb' 8 8) (raw.extractLsb' 0 8) 0
  | .scaleRhFix raw => packW 0x6 0 1 (raw.extractLsb' 8 8) (raw.extractLsb' 0 8) 0
  | .clrStatus => packW 0x7 0 0 0 0 0

/-- The word that bits numbered as spec/opcode_table.json numbers them stand for: the low `nbits` bits of `w`, zero above. -/
def tableWord (nbits w : Nat) : Word := BitVec.ofNat 32 (w % 2 ^ nbits)

/-- What the decoder reads from a table row's bits; there is one command length, 32 bits (30_encoding.md R69), so nothing
longer is a command. -/
def decodeTableWord (nbits w : Nat) : Option Instr :=
  if 32 < nbits then none
  else match decode (tableWord nbits w) with
    | .command i => some i
    | .cmdError _ => none

end Sys2Proof
end

