-- ==== Sys2Proof/Machine/State.lean ====
section
/-! DEFINITION. The state of the block (10_state.md R20), with the wires to its host, as plain data. -/

namespace Sys2Proof.Machine

/-- The width of a host read, one of those 20_memory.md R43 names (log entry 6). -/
inductive Width where
  | w1
  | w2
  | w4
  | w8
  deriving DecidableEq, Repr

/-- What a host write carries: a value of one of the widths 20_memory.md R43 names (log entry 6). -/
inductive WriteData where
  | b1 (v : BitVec 8)
  | b2 (v : BitVec 16)
  | b4 (v : Word)
  | b8 (v : BitVec 64)
  deriving DecidableEq, Repr

/-- What the outside world can do to the block, one step each (70_reset_and_hazards.md R159). An offset is counted from
`BLOCK_BASE`; an access below it has a negative one. -/
inductive HostEvent where
  /-- `HostRead(off, n)` (00_scope.md R10). -/
  | read (off : Int) (n : Width)
  /-- `HostWrite(off, n, v)`, the width n carried by the data (00_scope.md R10). -/
  | write (off : Int) (d : WriteData)
  /-- The platform asserts the block's reset input (70_reset_and_hazards.md R151). -/
  | reset
  deriving DecidableEq, Repr

/-- What the host gets back from an access (70_reset_and_hazards.md R159, "host gets back"). -/
inductive Reply where
  /-- The value a read returns. -/
  | data (v : Word)
  /-- The completion of a write. -/
  | done
  /-- The bus error of an access of the wrong width or alignment (20_memory.md R43, 60_exceptions.md R133). -/
  | busError
  deriving DecidableEq, Repr

/-- The five items of architectural state (10_state.md R20), and the model's own two fields for the host's side of the
window: what the host does next and what it got back last (log entries 1 and 3). -/
structure State where
  /-- `CRC`, the running CRC-8 remainder (R23). -/
  crc : Byte
  /-- `RES`, the last scaler result (R24). -/
  res : Word
  /-- `MATCH`, the last comparison (R25). -/
  matchFlag : Bool
  /-- `ERR`, sticky (R26). -/
  err : Bool
  /-- `ECAUSE`, the cause of the first command error (R27). -/
  ecause : BitVec 4
  /-- Host accesses and resets still to come, oldest first. DESIGN CHOICE, safe (log entry 1). -/
  pending : List HostEvent
  /-- The answer to the last performed access. DESIGN CHOICE, safe (log entry 3). -/
  reply : Option Reply
  deriving DecidableEq, Repr

/-- A reason for the machine to stop with a fault: there is none. Both error events of the block leave it running: a command
error is recorded and the block goes on (60_exceptions.md R131, R137), and a bus error is the answer to one access, after
which it goes on too (60_exceptions.md R133). Nothing raises a value of this type (log entry 4). -/
inductive Fault where
  deriving DecidableEq, Repr

/-- A reason for the model to give no meaning. -/
inductive Refusal where
  /-- Raised by an arm of exec for an instruction with no meaning yet. Safe. No arm raises it now. -/
  | notModelled (mnemonic : String)
  /-- Raised by `performRead` and `performWrite` for an access that starts outside offsets 0x00..0x1F: "not the block's. The
  platform decides them" (20_memory.md R44, I8). Safe. -/
  | outsideWindow
  /-- Raised by `launch` for a launch that does not begin with a reset (10_state.md R34, I4). Safe. -/
  | beforeReset
  deriving DecidableEq, Repr

/-- The state right after a block reset (10_state.md R33), with no host access to come (log entry 1) and none answered. -/
def State.reset : State where
  crc := 0x00
  res := 0x00000000
  matchFlag := false
  err := false
  ecause := 0x0
  pending := []
  reply := none

end Sys2Proof.Machine
end

