-- ==== Sys2Proof/Machine/Ops.lean ====
section
/-! DEFINITION. The named operations on the state: the one writer of each register, the command error (this hardware's
exception entry), its acknowledgement, the block reset, and the answer to the host. -/

namespace Sys2Proof.Machine

/-- How a meaning ends: the command completes within its write (70_reset_and_hazards.md R155). -/
def complete (s : State) : Host.Outcome State Fault Refusal := .next s

/-- `CRC <- v` (10_state.md R23). -/
def setCrc (v : Byte) (s : State) : State := { s with crc := v }

/-- `RES <- v` (10_state.md R24). -/
def setRes (v : Word) (s : State) : State := { s with res := v }

/-- `MATCH <- b` (10_state.md R25). -/
def setMatch (b : Bool) (s : State) : State := { s with matchFlag := b }

/-- `raise CmdError(cause)`: "if ERR = 0 then ECAUSE <- cause; ERR <- 1", and no other effect (60_exceptions.md R131). -/
def cmdError (cause : CmdCause) (s : State) : State :=
  { s with ecause := if s.err then s.ecause else cause.code, err := true }

/-- The host's acknowledgement of an error, in place of a return from trap (60_exceptions.md R137): MATCH, ERR and ECAUSE
are cleared (42_control.md R121). -/
def clearFlags (s : State) : State := { s with matchFlag := false, err := false, ecause := 0x0 }

/-- Block reset: every item of state takes its reset value at once (70_reset_and_hazards.md R150); the host gets nothing back
(R159). What the host does afterwards is not the block's state and stays. -/
def blockReset (s : State) : State := { State.reset with pending := s.pending }

/-- What the host gets back for an access (70_reset_and_hazards.md R159). -/
def answer (r : Reply) (s : State) : State := { s with reply := some r }

/-- The completion of a CMD write: if the command completes, the host's write completes with it (70_reset_and_hazards.md
R155, R159). -/
def answerDone (o : Host.Outcome State Fault Refusal) : Host.Outcome State Fault Refusal :=
  match o with
  | .next t => .next (answer .done t)
  | .fault r => .fault r
  | .refused r => .refused r

end Sys2Proof.Machine
end

