-- ==== Sys2Proof/Machine/Control.lean ====
section
/-! DEFINITION. The two control commands (42_control.md R120, R121). -/

namespace Sys2Proof.Machine

/-- `nop`: "no state is written" (42_control.md R120). -/
def execNop (s : State) : Host.Outcome State Fault Refusal := complete s

/-- `clr.status`: MATCH, ERR and ECAUSE cleared; CRC and RES stay (42_control.md R121). -/
def execClrStatus (s : State) : Host.Outcome State Fault Refusal := complete (clearFlags s)

end Sys2Proof.Machine
end

