-- ==== Sys2Proof/Machine/Flags.lean ====
section
/-! DEFINITION. The one comparison that sets a flag, and the STATUS view of the flags. -/

namespace Sys2Proof.Machine

/-- The validator's verdict, "true when the computed CRC equals the supplied checksum byte" (10_state.md R25). -/
def crcMatches (crc c : Byte) : Bool := crc = c

/-- `zext_32(ECAUSE : 0b00 : ERR : MATCH)`, the STATUS view (10_state.md R28). -/
def statusWord (s : State) : Word :=
  (s.ecause ++ 0#2 ++ BitVec.ofBool s.err ++ BitVec.ofBool s.matchFlag).zeroExtend 32

end Sys2Proof.Machine
end

