-- ==== Sys2Proof/Config.lean ====
section
/-! DEFINITION. The implementation parameters of 00_scope.md R7. Every one but BLOCK_BASE is fixed by the spec and no
register holds it (10_state.md R35). -/

namespace Sys2Proof.Config

/-- What the polynomial 0x131 leaves in the 8-bit register: 0x31 (00_scope.md R7, 40_crc.md R80). -/
def crcPoly : Byte := 0x31

/-- The CRC initial value, "zero initial register value" (00_scope.md R7, 40_crc.md R81). -/
def crcInit : Byte := 0x00

/-- The mask that clears the low 2 status bits of a raw reading (00_scope.md R7, 41_scale.md R100). -/
def rawMask : Raw := 0xFFFC

/-- The size of the register window in bytes (00_scope.md R7, 20_memory.md R40). -/
def windowBytes : Nat := 32

/-- Which 32-byte slot of the host's address space the platform gave the window. OPEN in the spec (20_memory.md R40, D6):
an uninterpreted constant, so that nothing can rest on its value. DESIGN CHOICE, safe (log entry 7). -/
opaque blockSlot : Nat

/-- `BLOCK_BASE`, "to be aligned to 32 bytes" (20_memory.md R40): a multiple of 32 by its form (log entry 7). -/
def blockBase : Nat := 32 * blockSlot

end Sys2Proof.Config
end

