-- ==== Sys2Proof/Machine/Operands.lean ====
section
/-! DEFINITION. The operand forms: the big-endian combine, the masking rule, and the exact numerators of the two transfer
functions. -/

namespace Sys2Proof.Machine

/-- `raw = d0 : d1 = (zext_16(d0) << 8) | zext_16(d1)`: the first byte the sensor sends is the high byte (20_memory.md R46). -/
def combine (d0 d1 : Byte) : Raw := (d0.zeroExtend 16) <<< 8 ||| d1.zeroExtend 16

/-- `m = RAW & 0xFFFC` (41_scale.md R100). -/
def maskRaw (raw : Raw) : Raw := raw &&& Config.rawMask

/-- `N_T(m) = -4685 * 65536 + 17572 * m`: 100 * 65536 times the temperature in °C (41_scale.md R101, R103). -/
def numT (m : Nat) : Int := -4685 * 65536 + 17572 * m

/-- `N_RH(m) = -600 * 65536 + 12500 * m`: 100 * 65536 times the humidity in %RH (41_scale.md R101, R103). -/
def numRh (m : Nat) : Int := -600 * 65536 + 12500 * m

/-- The common denominator `100 * 65536` of V_T and V_RH (41_scale.md R101). -/
def scaleDen : Nat := 100 * 65536

end Sys2Proof.Machine
end

