-- ==== Sys2Proof/Machine/Crc.lean ====
section
/-! DEFINITION. The CRC-8 function (40_crc.md R80, R81) and the four validator commands (R83 to R86). -/

namespace Sys2Proof.Machine

/-- `crc8_round`: shift left in 8 bits, and XOR 0x31 if bit 7 was set (40_crc.md R80). -/
def crc8Round (c : Byte) : Byte := if c.getLsbD 7 then (c <<< 1) ^^^ Config.crcPoly else c <<< 1

/-- `n` rounds of the CRC register. -/
def crc8Rounds : Nat → Byte → Byte
  | 0, t => t
  | n + 1, t => crc8Rounds n (crc8Round t)

/-- `crc8_feed`: XOR the byte in, then 8 rounds (40_crc.md R80). -/
def crc8Feed (c b : Byte) : Byte := crc8Rounds 8 (c ^^^ b)

/-- `crc8`: from the zero register, the bytes in order, first byte first (40_crc.md R81). -/
def crc8 (bytes : List Byte) : Byte := bytes.foldl crc8Feed Config.crcInit

/-- `crc.init`: `CRC <- 0x00` (40_crc.md R83). -/
def execCrcInit (s : State) : Host.Outcome State Fault Refusal :=
  complete (setCrc Config.crcInit s)

/-- `crc.feed A`: `CRC <- crc8_feed(CRC, A)`; MATCH stays (40_crc.md R84). -/
def execCrcFeed (a : Byte) (s : State) : Host.Outcome State Fault Refusal :=
  complete (setCrc (crc8Feed s.crc a) s)

/-- `crc.check C`: `MATCH <- (CRC = C)`; CRC stays (40_crc.md R85). -/
def execCrcCheck (c : Byte) (s : State) : Host.Outcome State Fault Refusal :=
  complete (setMatch (crcMatches s.crc c) s)

/-- `crc.val2 A, B, C`: `r <- crc8([A, B])`, from 0x00 whatever CRC held; `CRC <- r`; `MATCH <- (r = C)` (40_crc.md R86). -/
def execCrcVal2 (a b c : Byte) (s : State) : Host.Outcome State Fault Refusal :=
  complete (setMatch (crcMatches (crc8 [a, b]) c) (setCrc (crc8 [a, b]) s))

end Sys2Proof.Machine
end

