-- ==== Sys2Proof/Machine/Float32.lean ====
section
/-! DEFINITION. binary32: `round_f32` and `f32_to_real` (00_scope.md R11). A rational is given as its numerator and its
positive denominator, and everything is exact integer arithmetic. For every value a scaler command produces the result is a
normal number (41_scale.md R102); subnormals, a magnitude past the largest finite number and the sign of a negative value
that rounds to zero are IEEE 754's. PRESUMED (log entry 10). -/

namespace Sys2Proof.Machine

/-- The integer nearest `a / d`, ties to the even one (00_scope.md R11, roundTiesToEven). -/
def roundHalfEven (a d : Nat) : Nat :=
  let q := a / d
  let r := a % d
  if 2 * r < d then q
  else if d < 2 * r then q + 1
  else if q % 2 = 0 then q
  else q + 1

/-- The exponent e with 2^e ≤ a / d < 2^(e+1), for a and d positive. -/
def floorLog2 (a d : Nat) : Int :=
  let k : Int := (a.log2 : Int) - (d.log2 : Int)
  if d * 2 ^ k.toNat ≤ a * 2 ^ (-k).toNat then k else k - 1

/-- The exponent of the last significand bit of a binary32 number of the size of `a / d`: 23 below its leading exponent, and
never below that of a subnormal, 2^-149. -/
def quantumExp (a d : Nat) : Int := max (floorLog2 a d - 23) (-149)

/-- `a / d` as a whole number of steps of its binade, rounded: the 24-bit significand. -/
def significand (a d : Nat) : Nat :=
  let q := quantumExp a d
  roundHalfEven (a * 2 ^ (-q).toNat) (d * 2 ^ q.toNat)

/-- Bits [30:0] of the binary32 number nearest `a / d`: the biased exponent over the fraction. A significand that rounds up to
2^24 carries into the exponent, as it should; what reaches the exponent 255 is infinity. -/
def roundMagnitude (a d : Nat) : Nat :=
  if a = 0 then 0
  else min ((quantumExp a d + 149).toNat * 2 ^ 23 + significand a d) 0x7F800000

/-- `round_f32(n / d)` for d > 0 (00_scope.md R11): nearest, ties to even, as a 32-bit encoding. -/
def roundF32 (n : Int) (d : Nat) : Word :=
  BitVec.ofNat 32 ((if n < 0 then 2 ^ 31 else 0) + roundMagnitude n.natAbs d)

/-- `sign[31]` (00_scope.md R11). -/
def f32Sign (w : Word) : Bool := w.getLsbD 31

/-- `biased_exponent[30:23]` (00_scope.md R11). -/
def f32Exponent (w : Word) : Nat := (w.extractLsb' 23 8).toNat

/-- `fraction[22:0]` (00_scope.md R11). -/
def f32Fraction (w : Word) : Nat := (w.extractLsb' 0 23).toNat

/-- A normal number: its biased exponent is neither all zeros nor all ones. -/
def f32IsNormal (w : Word) : Bool := 0 < f32Exponent w && f32Exponent w < 255

/-- `f32_to_real(w)` (00_scope.md R11): `(-1)^sign × 2^(biased_exponent - 127) × (1 + fraction/2^23)` for a normal number; a
biased exponent of zero gives the subnormals and zero; 255 (infinity, NaN) encodes no real value (log entry 10). -/
def f32ToReal (w : Word) : Option ℚ :=
  if f32Exponent w = 255 then none
  else
    let sign : ℚ := if f32Sign w then -1 else 1
    if f32Exponent w = 0 then some (sign * (2 : ℚ) ^ (-126 : Int) * (f32Fraction w / 2 ^ 23))
    else some (sign * (2 : ℚ) ^ ((f32Exponent w : Int) - 127) * (1 + f32Fraction w / 2 ^ 23))

end Sys2Proof.Machine
end

