-- ==== Sys2Proof/Machine/Scale.lean ====
section
/-! DEFINITION. The two output encodings (41_scale.md R102, R103) and the four scaler commands (R104 to R107). No command
reads MATCH or any other state (R111). -/

namespace Sys2Proof.Machine

/-- `enc_f32(V) = round_f32(V)` for V = N / (100 * 65536) (41_scale.md R102). -/
def encF32 (n : Int) : Word := roundF32 n scaleDen

/-- `enc_fix(N) = trunc_32((N + 32768) >>> 16)` (41_scale.md R103). -/
def encFix (n : Int) : Word := BitVec.ofInt 32 ((n + 32768) >>> (16 : Nat))

/-- `scale.t.f32 RAW` (41_scale.md R104). -/
def execScaleTF32 (raw : Raw) (s : State) : Host.Outcome State Fault Refusal :=
  complete (setRes (encF32 (numT (maskRaw raw).toNat)) s)

/-- `scale.t.fix RAW` (41_scale.md R105). -/
def execScaleTFix (raw : Raw) (s : State) : Host.Outcome State Fault Refusal :=
  complete (setRes (encFix (numT (maskRaw raw).toNat)) s)

/-- `scale.rh.f32 RAW` (41_scale.md R106). -/
def execScaleRhF32 (raw : Raw) (s : State) : Host.Outcome State Fault Refusal :=
  complete (setRes (encF32 (numRh (maskRaw raw).toNat)) s)

/-- `scale.rh.fix RAW` (41_scale.md R107). -/
def execScaleRhFix (raw : Raw) (s : State) : Host.Outcome State Fault Refusal :=
  complete (setRes (encFix (numRh (maskRaw raw).toNat)) s)

end Sys2Proof.Machine
end

