-- ==== Sys2Proof/Machine/Dispatch.lean ====
section
/-! DEFINITION. One arm per command (30_encoding.md R64), each a direct call of its meaning. -/

namespace Sys2Proof.Machine

def exec (i : Instr) (s : State) : Host.Outcome State Fault Refusal :=
  match i with
  | .nop => Sys2Proof.Machine.execNop s
  | .crcInit => Sys2Proof.Machine.execCrcInit s
  | .crcFeed a => Sys2Proof.Machine.execCrcFeed a s
  | .crcCheck c => Sys2Proof.Machine.execCrcCheck c s
  | .crcVal2 a b c => Sys2Proof.Machine.execCrcVal2 a b c s
  | .scaleTF32 raw => Sys2Proof.Machine.execScaleTF32 raw s
  | .scaleTFix raw => Sys2Proof.Machine.execScaleTFix raw s
  | .scaleRhF32 raw => Sys2Proof.Machine.execScaleRhF32 raw s
  | .scaleRhFix raw => Sys2Proof.Machine.execScaleRhFix raw s
  | .clrStatus => Sys2Proof.Machine.execClrStatus s

end Sys2Proof.Machine
end

