-- ==== Sys2Proof/Machine/Access.lean ====
section
/-! DEFINITION. The register window (20_memory.md) and what each thing the host can do makes of the state
(70_reset_and_hazards.md R159). -/

namespace Sys2Proof.Machine

/-- The registers of the window (20_memory.md R41). -/
inductive View where
  | cmd
  | status
  | crc
  | res
  | reserved
  deriving DecidableEq, Repr

/-- The register map, for a performed access (20_memory.md R41). -/
def viewAt (off : Int) : View :=
  if off = 0x00 then .cmd
  else if off = 0x04 then .status
  else if off = 0x08 then .crc
  else if off = 0x0C then .res
  else .reserved

/-- The window offset of a named register (20_memory.md R41); of the reserved ones, the first. -/
def View.offset : View → Int
  | .cmd => 0x00
  | .status => 0x04
  | .crc => 0x08
  | .res => 0x0C
  | .reserved => 0x10

/-- The value a register view reads as: CMD reads 0 (10_state.md R29), STATUS is R28, CRC and RES are R30, a reserved offset
reads 0 (20_memory.md R44). -/
def viewWord (v : View) (s : State) : Word :=
  match v with
  | .cmd => 0x00000000
  | .status => statusWord s
  | .crc => s.crc.zeroExtend 32
  | .res => s.res
  | .reserved => 0x00000000

/-- Whether an access is the block's: its offset is one of 0x00 to 0x1F (20_memory.md R40, R44). An access belongs where its
first byte lies. DEDUCED (log entry 5). -/
def inWindow (off : Int) : Bool := 0 ≤ off ∧ off < Config.windowBytes

/-- "Every host access must be 4 bytes wide (n = 4), at an offset that is a multiple of 4" (20_memory.md R43). -/
def accessAllowed (off : Int) (n : Width) : Bool := n = .w4 ∧ off % 4 = 0

/-- The width of a write (00_scope.md R10). -/
def WriteData.width : WriteData → Width
  | .b1 _ => .w1
  | .b2 _ => .w2
  | .b4 _ => .w4
  | .b8 _ => .w8

/-- A word written to CMD: one command, or one command error, within the write (20_memory.md R42, 30_encoding.md R68,
60_exceptions.md R131, 70_reset_and_hazards.md R155). -/
def runCommandWord (w : Word) (s : State) : Host.Outcome State Fault Refusal :=
  match decode w with
  | .command i => answerDone (exec i s)
  | .cmdError cause => .next (answer .done (cmdError cause s))

/-- A performed write of a word: CMD runs it; a read-only view (20_memory.md R45) and a reserved offset (R44) ignore it. -/
def writeView (v : View) (w : Word) (s : State) : Host.Outcome State Fault Refusal :=
  match v with
  | .cmd => runCommandWord w s
  | .status => .next (answer .done s)
  | .crc => .next (answer .done s)
  | .res => .next (answer .done s)
  | .reserved => .next (answer .done s)

/-- An access that is not performed: no state changes and the host gets a bus error (20_memory.md R43, 60_exceptions.md R133).
The block goes on (log entry 4). -/
def busError (s : State) : Host.Outcome State Fault Refusal := .next (answer .busError s)

/-- `HostRead(off, n)` (20_memory.md R41, R43, R44). -/
def performRead (off : Int) (n : Width) (s : State) : Host.Outcome State Fault Refusal :=
  if inWindow off then
    if accessAllowed off n then .next (answer (.data (viewWord (viewAt off) s)) s)
    else busError s
  else .refused .outsideWindow

/-- `HostWrite(off, n, v)` (20_memory.md R42 to R45). -/
def performWrite (off : Int) (d : WriteData) (s : State) : Host.Outcome State Fault Refusal :=
  if inWindow off then
    if accessAllowed off d.width then
      match d with
      | .b4 w => writeView (viewAt off) w s
      | .b1 _ => busError s
      | .b2 _ => busError s
      | .b8 _ => busError s
    else busError s
  else .refused .outsideWindow

/-- One thing the host does (70_reset_and_hazards.md R159). -/
def performEvent (e : HostEvent) (s : State) : Host.Outcome State Fault Refusal :=
  match e with
  | .read off n => performRead off n s
  | .write off d => performWrite off d s
  | .reset => .next (blockReset s)

/-- One step: the oldest thing the host still has to do is done (20_memory.md R51). With nothing to do the block, which acts
only on an access (10_state.md R21), stays as it is. DEDUCED (log entry 2). -/
def performNext (s : State) : Host.Outcome State Fault Refusal :=
  match s.pending with
  | [] => .next s
  | e :: rest => performEvent e { s with pending := rest }

/-- The write of a word to CMD (20_memory.md R42). -/
def HostEvent.writeCmd (w : Word) : HostEvent := .write 0x00 (.b4 w)

/-- A launch from power-up: power-up is a block reset (70_reset_and_hazards.md R151), and the state before it is not modelled,
so "a launch that reads the block before any reset is refused" (10_state.md R34). -/
def launch (events : List HostEvent) : Host.Outcome State Fault Refusal :=
  match events with
  | .reset :: rest => .next { State.reset with pending := rest }
  | .read _ _ :: _ => .refused .beforeReset
  | .write _ _ :: _ => .refused .beforeReset
  | [] => .refused .beforeReset

/-- The offset of a host address: `addr = BLOCK_BASE + off` (00_scope.md R10). -/
def offsetOf (addr : Nat) : Int := (addr : Int) - Config.blockBase

/-- `MemRead(addr, n)` of the common notation (00_scope.md R10). -/
def HostEvent.memRead (addr : Nat) (n : Width) : HostEvent := .read (offsetOf addr) n

/-- `MemWrite(addr, n, v)` of the common notation (00_scope.md R10). -/
def HostEvent.memWrite (addr : Nat) (d : WriteData) : HostEvent := .write (offsetOf addr) d

/-- The host does this next, before whatever it does afterwards. -/
def State.withEvent (s : State) (e : HostEvent) : State := { s with pending := e :: s.pending }

/-- The next thing the host does is to write this word to CMD. -/
def State.withCommand (s : State) (w : Word) : State := s.withEvent (.writeCmd w)

end Sys2Proof.Machine
end

