-- ==== Sys2Proof/Machine/Step.lean ====
section
/-! DEFINITION. The step, and the placing of a command where the next step takes it. -/

namespace Sys2Proof.Machine

/-- One step of the machine: one host access, or one reset (20_memory.md R42, R51, 70_reset_and_hazards.md R152). -/
def step (s : State) : Host.Outcome State Fault Refusal := performNext s

/-- The command of a table row is written to CMD next, before whatever the host does afterwards (log entry 1). -/
def State.withFetchWord (s : State) (nbits w : Nat) : State := s.withCommand (tableWord nbits w)

end Sys2Proof.Machine
end

