-- ==== Sys2Proof/Machine/Asm.lean ====
section
/-! DEFINITION. The assembler (30_encoding.md R70, R71) and the host-side statements (R72). No behaviour of the block rests
on them (D24). -/

namespace Sys2Proof.Machine

/-- The mnemonic of a command (30_encoding.md R64). -/
def mnemonic : Instr → String
  | .nop => "nop"
  | .crcInit => "crc.init"
  | .crcFeed _ => "crc.feed"
  | .crcCheck _ => "crc.check"
  | .crcVal2 _ _ _ => "crc.val2"
  | .scaleTF32 _ => "scale.t.f32"
  | .scaleTFix _ => "scale.t.fix"
  | .scaleRhF32 _ => "scale.rh.f32"
  | .scaleRhFix _ => "scale.rh.fix"
  | .clrStatus => "clr.status"

/-- `crc.init ; crc.feed d0 ; ... ; crc.check C` (30_encoding.md R71). -/
def validateSequence (ds : List Byte) (c : Byte) : List Instr := .crcInit :: ds.map .crcFeed ++ [.crcCheck c]

/-- The words a line stands for once its operands are known to be in range: its own word (30_encoding.md R70), or the
expansion of a pseudo-instruction (R71). -/
def AsmLine.words : AsmLine → List Word
  | .nop => [encode .nop]
  | .crcInit => [encode .crcInit]
  | .crcFeed a => [encode (.crcFeed (BitVec.ofNat 8 a))]
  | .crcCheck c => [encode (.crcCheck (BitVec.ofNat 8 c))]
  | .crcVal2 a b c => [encode (.crcVal2 (BitVec.ofNat 8 a) (BitVec.ofNat 8 b) (BitVec.ofNat 8 c))]
  | .scaleTF32 raw => [encode (.scaleTF32 (BitVec.ofNat 16 raw))]
  | .scaleTFix raw => [encode (.scaleTFix (BitVec.ofNat 16 raw))]
  | .scaleRhF32 raw => [encode (.scaleRhF32 (BitVec.ofNat 16 raw))]
  | .scaleRhFix raw => [encode (.scaleRhFix (BitVec.ofNat 16 raw))]
  | .clrStatus => [encode .clrStatus]
  | .rawWord w => [BitVec.ofNat 32 w]
  | .scaleT raw => [encode (.scaleTF32 (BitVec.ofNat 16 raw))]
  | .scaleRh raw => [encode (.scaleRhF32 (BitVec.ofNat 16 raw))]
  | .crcVal1 a c => (validateSequence [BitVec.ofNat 8 a] (BitVec.ofNat 8 c)).map encode
  | .crcValn ds c => (validateSequence (ds.map (BitVec.ofNat 8)) (BitVec.ofNat 8 c)).map encode
  | .crcFrame d0 d1 c => [encode (.crcVal2 (BitVec.ofNat 8 d0) (BitVec.ofNat 8 d1) (BitVec.ofNat 8 c))]

/-- Assembling a line: "an operand out of range is an assembly error, never truncated" (30_encoding.md R70). -/
def assemble (l : AsmLine) : Option (List Word) := if l.wf then some (AsmLine.words l) else none

/-- `rd REG`, which is `HostRead(off(REG), 4)` (30_encoding.md R72). -/
def HostEvent.rd (reg : View) : HostEvent := .read reg.offset .w4

/-- A bare command line `cmd`, which stands for `wr CMD, encode(cmd)` (30_encoding.md R72). -/
def HostEvent.cmd (i : Instr) : HostEvent := .writeCmd (encode i)

/-- White space between the parts of a line (log entry 13). -/
def asmSpace (c : Char) : Bool := c = ' ' || c = '\t'

/-- A text without white space at its two ends. -/
def asmTrim (cs : List Char) : List Char := ((cs.dropWhile asmSpace).reverse.dropWhile asmSpace).reverse

/-- A text cut at every comma. -/
def splitCommas : List Char → List (List Char)
  | [] => [[]]
  | x :: xs =>
    if x = ',' then [] :: splitCommas xs
    else match splitCommas xs with
      | [] => [[x]]
      | part :: parts => (x :: part) :: parts

/-- The value of a hexadecimal digit, of either case (log entry 13). -/
def digitValue (c : Char) : Option Nat :=
  if '0' ≤ c ∧ c ≤ '9' then some (c.toNat - 48)
  else if 'A' ≤ c ∧ c ≤ 'F' then some (c.toNat - 55)
  else if 'a' ≤ c ∧ c ≤ 'f' then some (c.toNat - 87)
  else none

/-- The number some digits of a base stand for, most significant first, after the value read so far. -/
def digitsValue (base : Nat) : Nat → List Char → Option Nat
  | acc, [] => some acc
  | acc, c :: cs =>
    match digitValue c with
    | some v => if v < base then digitsValue base (acc * base + v) cs else none
    | none => none

/-- An operand, "written in hexadecimal (`0x..`) or decimal" (30_encoding.md R70). -/
def parseOperand (cs : List Char) : Option Nat :=
  match cs with
  | [] => none
  | '0' :: 'x' :: [] => none
  | '0' :: 'x' :: digits => digitsValue 16 0 digits
  | digits => digitsValue 10 0 digits

/-- The operands of a line, "separated by commas" (30_encoding.md R70). -/
def parseOperands (cs : List Char) : Option (List Nat) :=
  match asmTrim cs with
  | [] => some []
  | cs => (splitCommas cs).mapM fun part => parseOperand (asmTrim part)

/-- A line from its mnemonic and its operands (30_encoding.md R70, R71). -/
def asmLineOf (name : String) (ops : List Nat) : Option AsmLine :=
  match name, ops with
  | "nop", [] => some .nop
  | "crc.init", [] => some .crcInit
  | "crc.feed", [a] => some (.crcFeed a)
  | "crc.check", [c] => some (.crcCheck c)
  | "crc.val2", [a, b, c] => some (.crcVal2 a b c)
  | "scale.t.f32", [raw] => some (.scaleTF32 raw)
  | "scale.t.fix", [raw] => some (.scaleTFix raw)
  | "scale.rh.f32", [raw] => some (.scaleRhF32 raw)
  | "scale.rh.fix", [raw] => some (.scaleRhFix raw)
  | "clr.status", [] => some .clrStatus
  | ".word", [w] => some (.rawWord w)
  | "scale.t", [raw] => some (.scaleT raw)
  | "scale.rh", [raw] => some (.scaleRh raw)
  | "crc.val1", [a, c] => some (.crcVal1 a c)
  | "crc.frame", [d0, d1, c] => some (.crcFrame d0 d1 c)
  | "crc.valn", ops =>
    match ops.reverse with
    | c :: ds => some (.crcValn ds.reverse c)
    | [] => none
  | _, _ => none

/-- One line of text (30_encoding.md R70). -/
def parseLine (text : String) : Option AsmLine :=
  let cs := asmTrim text.toList
  match parseOperands (cs.dropWhile fun c => !asmSpace c) with
  | some ops => asmLineOf (String.ofList (cs.takeWhile fun c => !asmSpace c)) ops
  | none => none

end Sys2Proof.Machine
end

