-- ==== Sys2Proof/Safety.lean ====
section
/-! DEFINITION. What counts as a legal state and as a safe run, in the terms claims use. -/

namespace Sys2Proof.Machine

/-- ECAUSE holds a legal value (10_state.md R27: "0x3..0xF: never produced"), and it is 0x0 exactly when no command error has
occurred since the last clear, which is what ERR = 0 says (R26, R27). -/
def State.Inv (s : State) : Prop :=
  (s.ecause = 0x0 ∨ s.ecause = 0x1 ∨ s.ecause = 0x2) ∧ (s.err = false ↔ s.ecause = 0x0)

/-- No command error since the last clear: the premise a claim may take (D5, I1). -/
def State.errorFree (s : State) : Prop := s.err = false

/-- The host makes only accesses the block performs: each one in the window, 4 bytes wide and aligned (20_memory.md R43). -/
def HostEvent.performed : HostEvent → Bool
  | .read off n => inWindow off && accessAllowed off n
  | .write off d => inWindow off && accessAllowed off d.width
  | .reset => true

/-- A safe run of `k` steps: every access to come is one the block performs, the run answers a next state, and no command
error is recorded in it. -/
def SafeRun (k : Nat) (s : State) : Prop :=
  s.pending.all HostEvent.performed ∧ ∃ t, Sys2Proof.core.run k s = .next t ∧ State.errorFree t

end Sys2Proof.Machine
end

