-- ==== Sys2Proof/Certificates/Slice0/Obligations.lean ====
section
/-! DEFINITION. What is stated about the block, from the numbered rules of spec/. `s.withEvent e` is the state s in which the
host does e next; every state with something to come is of that form. -/

open Sys2Proof Sys2Proof.Machine

namespace Sys2Proof.Claims

/-- The state after the host's write of an erroneous word: `if ERR = 0 then ECAUSE <- cause; ERR <- 1`, nothing else, and the
write completes (60_exceptions.md R131, 70_reset_and_hazards.md R159). -/
def erred (cause : BitVec 4) (s : State) : State :=
  { s with ecause := if s.err then s.ecause else cause, err := true, reply := some .done }

/-- The write of this word to CMD, in any state, is a command error with this cause. -/
def WordErrs (w : Word) (cause : BitVec 4) : Prop := ∀ s, step (s.withCommand w) = .next (erred cause s)

/-- The word w is the command i: it is the encoding of i, and in any state its write to CMD makes of the block what f says,
and completes. -/
def WordIs (w : Word) (i : Instr) (f : State → State) : Prop :=
  encode i = w ∧ ∀ s, step (s.withCommand w) = .next { f s with reply := some .done }

/-- Every word with this opcode and some bit of the mask set is a command error with cause 0x2 (30_encoding.md R65). -/
def ReservedBits (op : BitVec 4) (mask : Word) : Prop :=
  ∀ w : Word, w.extractLsb' 28 4 = op → w &&& mask ≠ 0 → WordErrs w 0x2

/-- The word of a scaler command: its opcode and F bit above RAW in bits [23:8] (30_encoding.md R70). -/
def rawWord (base : Word) (raw : Raw) : Word := base ||| (raw.zeroExtend 32 <<< 8)

/-- The masked value as a number, `m = RAW & 0xFFFC` (41_scale.md R100). -/
def maskedValue (raw : Raw) : Nat := (raw &&& 0xFFFC).toNat

/-- `round_f32(V_T(m))` (41_scale.md R104). -/
def tempF32 (raw : Raw) : Word := roundF32 (-4685 * 65536 + 17572 * (maskedValue raw : Int)) (100 * 65536)

/-- `trunc_32((N_T(m) + 32768) >>> 16)` (41_scale.md R105). -/
def tempFix (raw : Raw) : Word := BitVec.ofInt 32 ((-4685 * 65536 + 17572 * (maskedValue raw : Int) + 32768) >>> (16 : Nat))

/-- `round_f32(V_RH(m))` (41_scale.md R106). -/
def humF32 (raw : Raw) : Word := roundF32 (-600 * 65536 + 12500 * (maskedValue raw : Int)) (100 * 65536)

/-- `trunc_32((N_RH(m) + 32768) >>> 16)` (41_scale.md R107). -/
def humFix (raw : Raw) : Word := BitVec.ofInt 32 ((-600 * 65536 + 12500 * (maskedValue raw : Int) + 32768) >>> (16 : Nat))

/-- `V_T(m)` in °C, exactly (41_scale.md R101). -/
def temp (raw : Raw) : ℚ := -46.85 + 175.72 * (maskedValue raw : ℚ) / 65536

/-- `V_RH(m)` in %RH, exactly (41_scale.md R101). -/
def hum (raw : Raw) : ℚ := -6 + 125 * (maskedValue raw : ℚ) / 65536

/-- The encoded values of a binary32 scaler increase strictly with m. -/
def StrictlyIncreasingF32 (f : Raw → Word) : Prop :=
  ∀ r r', maskedValue r < maskedValue r' → ∃ v v', f32ToReal (f r) = some v ∧ f32ToReal (f r') = some v' ∧ v < v'

/-- The word w encodes a real value nearest q among all binary32 values, and, if another value is as near, the one with the
even significand (00_scope.md R11). -/
def NearestEven (w : Word) (q : ℚ) : Prop :=
  ∃ v, f32ToReal w = some v ∧ ∀ w' v', f32ToReal w' = some v' →
    |v - q| ≤ |v' - q| ∧ (|v - q| = |v' - q| → v' ≠ v → w.getLsbD 0 = false)

/-- The next thing the host does is to write a word to CMD that selects the command i. -/
def NextIsCommand (i : Instr) (s : State) : Prop :=
  ∃ w rest, s.pending = HostEvent.writeCmd w :: rest ∧ decode w = .command i

/-- The next thing the host does is to write a word to CMD that selects no command, with this cause. -/
def NextIsError (cause : CmdCause) (s : State) : Prop :=
  ∃ w rest, s.pending = HostEvent.writeCmd w :: rest ∧ decode w = .cmdError cause

/-- The next thing is a block reset. -/
def NextIsReset (s : State) : Prop := ∃ rest, s.pending = .reset :: rest

/-- Two states hold the same five items of architectural state (10_state.md R20). -/
def SameItems (s t : State) : Prop :=
  t.crc = s.crc ∧ t.res = s.res ∧ t.matchFlag = s.matchFlag ∧ t.err = s.err ∧ t.ecause = s.ecause

/-- Every view of the window but the listed ones reads in t as in s. -/
def ReadsAlikeExcept (changed : List View) (s t : State) : Prop := ∀ v, v ∉ changed → viewWord v t = viewWord v s

/-- The writes of some commands to CMD, in order (30_encoding.md R72). -/
def commandWrites (is : List Instr) : List HostEvent := is.map fun i => HostEvent.writeCmd (encode i)

/-- One round as the source words it, with the 9-bit constant 0x131 and a 9-bit intermediate (40_crc.md R82). -/
def nineBitRound (c : Byte) : Byte :=
  if c.getLsbD 7 then ((c.zeroExtend 9 <<< 1) ^^^ 0x131#9).truncate 8 else c <<< 1

/-- Eight rounds in the 9-bit reading after the XOR of the byte (40_crc.md R82). -/
def nineBitFeed (c b : Byte) : Byte :=
  nineBitRound (nineBitRound (nineBitRound (nineBitRound
    (nineBitRound (nineBitRound (nineBitRound (nineBitRound (c ^^^ b))))))))

/-- A byte as a polynomial over GF(2), bit i the coefficient of x^i. -/
noncomputable def bytePoly (b : Byte) : Polynomial (ZMod 2) :=
  ∑ i ∈ Finset.range 8, if b.getLsbD i then Polynomial.X ^ i else 0

/-- A message as a polynomial over GF(2), the first byte in the highest place, most significant bit first. -/
noncomputable def messagePoly (bytes : List Byte) : Polynomial (ZMod 2) :=
  bytes.foldl (fun p b => p * Polynomial.X ^ 8 + bytePoly b) 0

/-- The polynomial 0x131, x^8 + x^5 + x^4 + 1 (00_scope.md R7). -/
noncomputable def crcPolynomial : Polynomial (ZMod 2) :=
  Polynomial.X ^ 8 + Polynomial.X ^ 5 + Polynomial.X ^ 4 + 1

end Sys2Proof.Claims

open Sys2Proof.Claims

/-! ### Reset and launch -/

/-- 10_state.md R33: every item of state at its reset value, and what the views then read as. -/
def Obligations.ResetLeavesEveryItemAtItsResetValue : Prop :=
  State.reset.crc = 0x00 ∧ State.reset.res = 0x00000000 ∧ State.reset.matchFlag = false ∧ State.reset.err = false ∧
  State.reset.ecause = 0x0 ∧
  ∀ v : View, ∃ t, step (State.reset.withEvent (.read v.offset .w4)) = .next t ∧ t.reply = some (.data 0x00000000)

/-- 70_reset_and_hazards.md R150: a block reset in any state sets every item to its reset value, all at once. That the host
gets nothing back (R159) and goes on with what it was to do next is the model's form of the host (log entries 1 and 3). -/
def Obligations.ResetSetsEveryItemFromAnyState : Prop :=
  ∀ s : State, step (s.withEvent .reset) =
    .next { crc := 0x00, res := 0x00000000, matchFlag := false, err := false, ecause := 0x0, pending := s.pending, reply := none }

/-- 70_reset_and_hazards.md R152: a reset that comes after a CMD write leaves the reset state, whatever the word. -/
def Obligations.ResetAfterACommandLeavesTheResetState : Prop :=
  ∀ (s : State) (w : Word) (rest : List HostEvent),
    core.run 2 { s with pending := HostEvent.writeCmd w :: .reset :: rest } = .next { State.reset with pending := rest }

/-- 70_reset_and_hazards.md R151: crc.init then clr.status leave every item at its reset value except RES. -/
def Obligations.InitThenClearResetsAllButRes : Prop :=
  ∀ (s : State) (rest : List HostEvent),
    core.run 2 { s with pending := commandWrites [.crcInit, .clrStatus] ++ rest } =
      .next { State.reset with res := s.res, pending := rest, reply := some .done }

/-- A launch that reads the block before any reset is refused, and one that begins with a reset starts at the reset state
(10_state.md section 8). That a launch which begins with a write is refused too is the model's choice (log entry 9). -/
def Obligations.LaunchWithoutResetIsRefused : Prop :=
  (∀ off n rest, launch (.read off n :: rest) = .refused .beforeReset) ∧
  (∀ off d rest, launch (.write off d :: rest) = .refused .beforeReset) ∧
  (∀ rest, launch (.reset :: rest) = .next { State.reset with pending := rest })

/-! ### Decoding and encoding -/

/-- Words written out from the opcode map (30_encoding.md R64) decode to the commands they stand for. -/
def Obligations.TableWordsDecode : Prop :=
  decode 0b00000000000000000000000000000000 = .command .nop ∧
  decode 0b00010000000000000000000000000000 = .command .crcInit ∧
  decode 0b00100000011001100000000000000000 = .command (.crcFeed 0x66) ∧
  decode 0b00110000000000000000000011111010 = .command (.crcCheck 0xFA) ∧
  decode 0b01000000011001100000010111111010 = .command (.crcVal2 0x66 0x05 0xFA) ∧
  decode 0b01010000011001100000010100000000 = .command (.scaleTF32 0x6605) ∧
  decode 0b01010001011001100000010100000000 = .command (.scaleTFix 0x6605) ∧
  decode 0b01100000011111001000000000000000 = .command (.scaleRhF32 0x7C80) ∧
  decode 0b01100001011111001000000000000000 = .command (.scaleRhFix 0x7C80) ∧
  decode 0b01110000000000000000000000000000 = .command .clrStatus

/-- When the next thing the host does is to write a word to CMD that decodes to i, the step is exec of i at the state with that
write taken from what is to come, and the write completes with the command (20_memory.md R42, 70_reset_and_hazards.md R155). -/
def Obligations.StepRunsTheDecodedCommand : Prop :=
  ∀ (s : State) (w : Word) (rest : List HostEvent) (i : Instr),
    s.pending = HostEvent.writeCmd w :: rest → decode w = .command i →
    step s = match exec i { s with pending := rest } with
      | .next t => .next { t with reply := some .done }
      | .fault r => .fault r
      | .refused r => .refused r

/-- 30_encoding.md R68: every word yields exactly one of the ten commands or a command error, by the opcode check, then the
reserved-field check, then the case on OP. -/
def Obligations.DecodeFollowsTheDecodeProcedure : Prop :=
  ∀ w : Word,
    let op := (w.extractLsb' 28 4).toNat
    let rsv : Word → Prop := fun mask => w &&& mask ≠ 0
    (8 ≤ op → decode w = .cmdError .reservedOp) ∧
    (op = 0 → (rsv 0x0FFFFFFF → decode w = .cmdError .reservedField) ∧ (¬ rsv 0x0FFFFFFF → decode w = .command .nop)) ∧
    (op = 1 → (rsv 0x0FFFFFFF → decode w = .cmdError .reservedField) ∧ (¬ rsv 0x0FFFFFFF → decode w = .command .crcInit)) ∧
    (op = 2 → (rsv 0x0F00FFFF → decode w = .cmdError .reservedField) ∧
      (¬ rsv 0x0F00FFFF → decode w = .command (.crcFeed (w.extractLsb' 16 8)))) ∧
    (op = 3 → (rsv 0x0FFFFF00 → decode w = .cmdError .reservedField) ∧
      (¬ rsv 0x0FFFFF00 → decode w = .command (.crcCheck (w.extractLsb' 0 8)))) ∧
    (op = 4 → (rsv 0x0F000000 → decode w = .cmdError .reservedField) ∧
      (¬ rsv 0x0F000000 → decode w = .command (.crcVal2 (w.extractLsb' 16 8) (w.extractLsb' 8 8) (w.extractLsb' 0 8)))) ∧
    (op = 5 → (rsv 0x0E0000FF → decode w = .cmdError .reservedField) ∧
      (¬ rsv 0x0E0000FF → w.getLsbD 24 = false → decode w = .command (.scaleTF32 (w.extractLsb' 8 16))) ∧
      (¬ rsv 0x0E0000FF → w.getLsbD 24 = true → decode w = .command (.scaleTFix (w.extractLsb' 8 16)))) ∧
    (op = 6 → (rsv 0x0E0000FF → decode w = .cmdError .reservedField) ∧
      (¬ rsv 0x0E0000FF → w.getLsbD 24 = false → decode w = .command (.scaleRhF32 (w.extractLsb' 8 16))) ∧
      (¬ rsv 0x0E0000FF → w.getLsbD 24 = true → decode w = .command (.scaleRhFix (w.extractLsb' 8 16)))) ∧
    (op = 7 → (rsv 0x0FFFFFFF → decode w = .cmdError .reservedField) ∧ (¬ rsv 0x0FFFFFFF → decode w = .command .clrStatus))

/-- The rows of spec/opcode_table.json, match and mask: a word decodes to a row's command, its operands in the row's fields,
exactly when it agrees with the row's match under its mask; so a word that agrees with no row selects no command
(30_encoding.md section 3). -/
def Obligations.DecodeAgreesWithTheOpcodeTable : Prop :=
  ∀ w : Word,
    (w = 0x00000000 ↔ decode w = .command .nop) ∧
    (w = 0x10000000 ↔ decode w = .command .crcInit) ∧
    (w &&& 0xFF00FFFF = 0x20000000 ↔ decode w = .command (.crcFeed (w.extractLsb' 16 8))) ∧
    (w &&& 0xFFFFFF00 = 0x30000000 ↔ decode w = .command (.crcCheck (w.extractLsb' 0 8))) ∧
    (w &&& 0xFF000000 = 0x40000000 ↔
      decode w = .command (.crcVal2 (w.extractLsb' 16 8) (w.extractLsb' 8 8) (w.extractLsb' 0 8))) ∧
    (w &&& 0xFF0000FF = 0x50000000 ↔ decode w = .command (.scaleTF32 (w.extractLsb' 8 16))) ∧
    (w &&& 0xFF0000FF = 0x51000000 ↔ decode w = .command (.scaleTFix (w.extractLsb' 8 16))) ∧
    (w &&& 0xFF0000FF = 0x60000000 ↔ decode w = .command (.scaleRhF32 (w.extractLsb' 8 16))) ∧
    (w &&& 0xFF0000FF = 0x61000000 ↔ decode w = .command (.scaleRhFix (w.extractLsb' 8 16))) ∧
    (w = 0x70000000 ↔ decode w = .command .clrStatus)

/-- Every command, with every value of its operands, is read back from its own word. -/
def Obligations.DecodeOfEncodeIsTheCommand : Prop := ∀ i : Instr, decode (encode i) = .command i

/-- Every word that selects a command is the encoding of that command, so no command has two words (30_encoding.md R64, R65). -/
def Obligations.EncodeOfDecodeIsTheWord : Prop := ∀ (w : Word) (i : Instr), decode w = .command i → encode i = w

/-- 20_memory.md R46: the two data bytes are combined big-endian, the first byte in field A and the second in field B, and the
CRC takes them in the same order. -/
def Obligations.DataBytesAreBigEndian : Prop :=
  ∀ d0 d1 c : Byte,
    let bytes : Word := (d0.zeroExtend 32 <<< 16) ||| (d1.zeroExtend 32 <<< 8)
    (combine d0 d1).toNat = 256 * d0.toNat + d1.toNat ∧
    combine d0 d1 = d0 ++ d1 ∧
    decode (0x50000000#32 ||| bytes) = .command (.scaleTF32 (combine d0 d1)) ∧
    decode (0x51000000#32 ||| bytes) = .command (.scaleTFix (combine d0 d1)) ∧
    decode (0x60000000#32 ||| bytes) = .command (.scaleRhF32 (combine d0 d1)) ∧
    decode (0x61000000#32 ||| bytes) = .command (.scaleRhFix (combine d0 d1)) ∧
    decode (0x40000000#32 ||| bytes ||| c.zeroExtend 32) = .command (.crcVal2 d0 d1 c) ∧
    crc8 [d0, d1] = crc8Feed (crc8Feed 0x00 d0) d1

/-! ### The commands -/

/-- 42_control.md R120. -/
def Obligations.NopWritesNothing : Prop :=
  (∀ s, exec .nop s = .next s) ∧ WordIs 0x00000000 .nop id ∧ ReservedBits 0x0 0x0FFFFFFF

/-- 40_crc.md R83. -/
def Obligations.CrcInitZeroesCrc : Prop :=
  (∀ s, exec .crcInit s = .next { s with crc := 0x00 }) ∧
  WordIs 0x10000000 .crcInit (fun s => { s with crc := 0x00 }) ∧ ReservedBits 0x1 0x0FFFFFFF

/-- 40_crc.md R84, with its example and its corner cases. -/
def Obligations.CrcFeedFeedsOneByte : Prop :=
  (∀ a s, exec (.crcFeed a) s = .next { s with crc := crc8Feed s.crc a }) ∧
  (∀ a : Byte, WordIs (0x20000000#32 ||| (a.zeroExtend 32 <<< 16)) (.crcFeed a) (fun s => { s with crc := crc8Feed s.crc a })) ∧
  ReservedBits 0x2 0x0F00FFFF ∧
  crc8Feed 0x00 0x66 = 0x1D ∧ crc8Feed 0x1D 0x05 = 0xFA ∧ crc8Feed 0x00 0x00 = 0x00 ∧
  State.reset.crc = 0x00 ∧ (∀ d0 d1 c, c = crc8 [d0, d1] → crc8Feed (crc8Feed (crc8Feed 0x00 d0) d1) c = 0x00)

/-- 40_crc.md R85, with its example and its corner cases. -/
def Obligations.CrcCheckComparesAndKeepsCrc : Prop :=
  (∀ c s, exec (.crcCheck c) s = .next { s with matchFlag := decide (s.crc = c) }) ∧
  (∀ c : Byte, WordIs (0x30000000#32 ||| c.zeroExtend 32) (.crcCheck c) (fun s => { s with matchFlag := decide (s.crc = c) })) ∧
  ReservedBits 0x3 0x0FFFFF00 ∧
  (∀ (c : Byte) (s : State), s.crc = 0x00 → ∃ t, exec (.crcCheck c) s = .next t ∧ (t.matchFlag = true ↔ c = 0x00)) ∧
  (∀ s : State, s.crc = 0xFA →
    exec (.crcCheck 0xFA) s = .next { s with matchFlag := true } ∧
    exec (.crcCheck 0xFB) s = .next { s with matchFlag := false })

/-- 40_crc.md R86, with its example and its corner cases. -/
def Obligations.CrcVal2ValidatesAFrame : Prop :=
  (∀ a b c s, exec (.crcVal2 a b c) s =
    .next { s with crc := crc8Feed (crc8Feed 0x00 a) b, matchFlag := decide (crc8Feed (crc8Feed 0x00 a) b = c) }) ∧
  (∀ a b c : Byte, WordIs (0x40000000#32 ||| (a.zeroExtend 32 <<< 16) ||| (b.zeroExtend 32 <<< 8) ||| c.zeroExtend 32)
    (.crcVal2 a b c) (fun s => { s with crc := crc8 [a, b], matchFlag := decide (crc8 [a, b] = c) })) ∧
  ReservedBits 0x4 0x0F000000 ∧
  (∀ s, exec (.crcVal2 0x00 0x00 0x00) s = .next { s with crc := 0x00, matchFlag := true }) ∧
  (∀ s, exec (.crcVal2 0xFF 0xFF 0xFF) s = .next { s with crc := 0x2D, matchFlag := false }) ∧
  (∀ s, exec (.crcVal2 0x66 0x05 0xFA) s = .next { s with crc := 0xFA, matchFlag := true })

/-- 41_scale.md R104, with its example and its corner cases. -/
def Obligations.ScaleTF32WritesTheRoundedTemperature : Prop :=
  (∀ raw s, exec (.scaleTF32 raw) s = .next { s with res := tempF32 raw }) ∧
  (∀ raw, WordIs (rawWord 0x50000000 raw) (.scaleTF32 raw) (fun s => { s with res := tempF32 raw })) ∧
  (∀ w : Word, w.extractLsb' 28 4 = 0x5 → w.getLsbD 24 = false → w &&& 0x0E0000FF ≠ 0 → WordErrs w 0x2) ∧
  (∀ raw : Raw, raw.toNat ≤ 3 → tempF32 raw = 0xC23B6666) ∧
  (∀ raw : Raw, 0xFFFC ≤ raw.toNat → tempF32 raw = 0x4300DBF9) ∧
  tempF32 17472 = 0xBB35C28F ∧ tempF32 17476 = 0x3C0247AE ∧
  maskedValue 0x6605 = 26116 ∧ tempF32 0x6605 = 0x41B964AF ∧
  StrictlyIncreasingF32 tempF32

/-- 41_scale.md R105, with its example and its corner cases. -/
def Obligations.ScaleTFixWritesCentiDegrees : Prop :=
  (∀ raw s, exec (.scaleTFix raw) s = .next { s with res := tempFix raw }) ∧
  (∀ raw, WordIs (rawWord 0x51000000 raw) (.scaleTFix raw) (fun s => { s with res := tempFix raw })) ∧
  (∀ w : Word, w.extractLsb' 28 4 = 0x5 → w.getLsbD 24 = true → w &&& 0x0E0000FF ≠ 0 → WordErrs w 0x2) ∧
  (tempFix 0).toInt = -4685 ∧ tempFix 0 = 0xFFFFEDB3 ∧ (tempFix 65532).toInt = 12886 ∧ tempFix 65532 = 0x00003256 ∧
  (tempFix 8192).toInt = -2488 ∧ tempFix 8192 = 0xFFFFF648 ∧ (tempFix 17472).toInt = 0 ∧ (tempFix 17476).toInt = 1 ∧
  tempFix 0x6605 = 0x0000090D ∧ (tempFix 0x6605).toInt = 2317 ∧
  (∀ r r', maskedValue r < maskedValue r' → (tempFix r).toInt < (tempFix r').toInt)

/-- 41_scale.md R106, with its example and its corner cases. -/
def Obligations.ScaleRhF32WritesTheRoundedHumidity : Prop :=
  (∀ raw s, exec (.scaleRhF32 raw) s = .next { s with res := humF32 raw }) ∧
  (∀ raw, WordIs (rawWord 0x60000000 raw) (.scaleRhF32 raw) (fun s => { s with res := humF32 raw })) ∧
  (∀ w : Word, w.extractLsb' 28 4 = 0x6 → w.getLsbD 24 = false → w &&& 0x0E0000FF ≠ 0 → WordErrs w 0x2) ∧
  humF32 0 = 0xC0C00000 ∧ f32ToReal 0xC0C00000 = some (-6) ∧ humF32 65532 = 0x42EDFC18 ∧
  humF32 32768 = 0x42620000 ∧ f32ToReal 0x42620000 = some 56.5 ∧ humF32 0x7C80 = 0x425B2A00 ∧
  (∀ raw, ∃ v, f32ToReal (humF32 raw) = some v ∧ (v < 0 ↔ maskedValue raw ≤ 3144) ∧ (100 < v ↔ 55576 ≤ maskedValue raw)) ∧
  3144 / 4 + 1 = 787 ∧
  StrictlyIncreasingF32 humF32

/-- 41_scale.md R107, with its example and its corner cases. -/
def Obligations.ScaleRhFixWritesCentiPercent : Prop :=
  (∀ raw s, exec (.scaleRhFix raw) s = .next { s with res := humFix raw }) ∧
  (∀ raw, WordIs (rawWord 0x61000000 raw) (.scaleRhFix raw) (fun s => { s with res := humFix raw })) ∧
  (∀ w : Word, w.extractLsb' 28 4 = 0x6 → w.getLsbD 24 = true → w &&& 0x0E0000FF ≠ 0 → WordErrs w 0x2) ∧
  (humFix 0).toInt = -600 ∧ humFix 0 = 0xFFFFFDA8 ∧ (humFix 65532).toInt = 11899 ∧ humFix 65532 = 0x00002E7B ∧
  (humFix 8192).toInt = 963 ∧ humFix 8192 = 0x000003C3 ∧ humFix 3144 = 0 ∧ humFix 3148 = 0 ∧
  humFix 0x7C80 = 0x00001567 ∧ (humFix 0x7C80).toInt = 5479 ∧
  (∀ r r', maskedValue r ≤ maskedValue r' → (humFix r).toInt ≤ (humFix r').toInt)

/-- 42_control.md R121, with its example and its corner cases. -/
def Obligations.ClrStatusClearsTheFlags : Prop :=
  (∀ s, exec .clrStatus s = .next { s with matchFlag := false, err := false, ecause := 0x0 }) ∧
  WordIs 0x70000000 .clrStatus (fun s => { s with matchFlag := false, err := false, ecause := 0x0 }) ∧
  ReservedBits 0x7 0x0FFFFFFF ∧
  (∀ s : State, s.matchFlag = false → s.err = false → s.ecause = 0x0 → exec .clrStatus s = .next s) ∧
  (∀ s w cause, decode w = .cmdError cause → ∃ t u, exec .clrStatus s = .next t ∧ step (t.withCommand w) = .next u ∧
    u.ecause = cause.code) ∧
  (∀ s, viewWord .status s = 0x00000013 → ∃ t, exec .clrStatus s = .next t ∧ viewWord .status t = 0x00000000)

/-- What each command leaves alone, seen through the register window: every view but those of the items it writes reads as
before, and so do the host's side of the state. -/
def Obligations.CommandsChangeOnlyTheirOwnViews : Prop :=
  ∀ s t : State, ∀ i : Instr, exec i s = .next t →
    t.pending = s.pending ∧ t.reply = s.reply ∧
    match i with
    | .nop => ReadsAlikeExcept [] s t
    | .crcInit => ReadsAlikeExcept [.crc] s t
    | .crcFeed _ => ReadsAlikeExcept [.crc] s t
    | .crcCheck _ => ReadsAlikeExcept [.status] s t
    | .crcVal2 _ _ _ => ReadsAlikeExcept [.crc, .status] s t
    | .scaleTF32 _ => ReadsAlikeExcept [.res] s t
    | .scaleTFix _ => ReadsAlikeExcept [.res] s t
    | .scaleRhF32 _ => ReadsAlikeExcept [.res] s t
    | .scaleRhFix _ => ReadsAlikeExcept [.res] s t
    | .clrStatus => ReadsAlikeExcept [.status] s t

/-! ### Command errors -/

/-- 60_exceptions.md R131, R132: an erroneous word, in any state, records its cause if ERR was 0, sets ERR, and has no other
effect; the causes are those of the table; and a word that selects a command other than clr.status leaves ERR and ECAUSE. -/
def Obligations.CommandErrorsAreRecordedAndDoNothingElse : Prop :=
  (∀ w : Word, 8 ≤ (w.extractLsb' 28 4).toNat → WordErrs w 0x1) ∧
  ReservedBits 0x0 0x0FFFFFFF ∧ ReservedBits 0x1 0x0FFFFFFF ∧ ReservedBits 0x2 0x0F00FFFF ∧ ReservedBits 0x3 0x0FFFFF00 ∧
  ReservedBits 0x4 0x0F000000 ∧ ReservedBits 0x5 0x0E0000FF ∧ ReservedBits 0x6 0x0E0000FF ∧ ReservedBits 0x7 0x0FFFFFFF ∧
  (∀ (w : Word) (i : Instr) (s : State), decode w = .command i → i ≠ .clrStatus →
    ∃ t, step (s.withCommand w) = .next t ∧ t.err = s.err ∧ t.ecause = s.ecause)

/-- 30_encoding.md R66: a reserved opcode is a command error with cause 0x1, whatever its other bits are, and the one nop word
is the only word that selects nop. -/
def Obligations.ReservedOpcodesHaveNoOtherMeaning : Prop :=
  (∀ w : Word, 8 ≤ (w.extractLsb' 28 4).toNat → WordErrs w 0x1 ∧ ∀ i, decode w ≠ .command i) ∧
  (∀ w : Word, decode w = .command .nop ↔ w = 0x00000000)

/-- 60_exceptions.md R137: with ERR = 1, or with any ERR and ECAUSE, a command other than clr.status does what it does without
them, and leaves them. -/
def Obligations.AnErrorBlocksNoLaterCommand : Prop :=
  ∀ (i : Instr) (s : State) (e : Bool) (c : BitVec 4), i ≠ .clrStatus →
    ∃ t, exec i s = .next t ∧ exec i { s with err := e, ecause := c } = .next { t with err := e, ecause := c }

/-- 41_scale.md R111, 40_crc.md R89: MATCH gates nothing. Whatever MATCH holds, every command does the same to CRC, RES, ERR and
ECAUSE, and a command that writes MATCH writes the same value. -/
def Obligations.MatchGatesNoCommand : Prop :=
  ∀ (i : Instr) (s : State) (b : Bool),
    ∃ t u, exec i s = .next t ∧ exec i { s with matchFlag := b } = .next u ∧
      u.crc = t.crc ∧ u.res = t.res ∧ u.err = t.err ∧ u.ecause = t.ecause ∧
      (u.matchFlag = t.matchFlag ∨ (t.matchFlag = s.matchFlag ∧ u.matchFlag = b))

/-! ### The register window -/

/-- An access of width 1, 2 or 8, or at an offset not a multiple of 4, changes no state, returns no data and is answered with a
bus error (20_memory.md section 2). Two things in it are the model's choices: that the machine goes on with a next state, where
the spec also allows a fault or a refusal (log entry 4), and that an access which starts in the window and runs past its end is
one of these (log entry 5). -/
def Obligations.WrongAccessesGetABusError : Prop :=
  ∀ (s : State) (off : Int), 0 ≤ off → off < 32 →
    (∀ n, n ≠ .w4 ∨ off % 4 ≠ 0 → step (s.withEvent (.read off n)) = .next { s with reply := some .busError }) ∧
    (∀ d, d.width ≠ .w4 ∨ off % 4 ≠ 0 → step (s.withEvent (.write off d)) = .next { s with reply := some .busError })

/-- 10_state.md R28: the STATUS view, bit by bit, and that it is read-only. -/
def Obligations.StatusViewHasItsLayout : Prop :=
  ∀ s : State,
    (∃ v : Word, step (s.withEvent (.read 0x04 .w4)) = .next { s with reply := some (.data v) } ∧
      v.getLsbD 0 = s.matchFlag ∧ v.getLsbD 1 = s.err ∧ v.extractLsb' 2 2 = 0 ∧ v.extractLsb' 4 4 = s.ecause ∧
      v.extractLsb' 8 24 = 0) ∧
    (∀ w, step (s.withEvent (.write 0x04 (.b4 w))) = .next { s with reply := some .done })

/-- 10_state.md R30 and 20_memory.md R45 and the reads of R41: CMD and the reserved offsets read 0, CRC and RES read their
registers, and a word written anywhere but to CMD is ignored. -/
def Obligations.ViewsReadTheStateAndIgnoreWrites : Prop :=
  ∀ s : State,
    step (s.withEvent (.read 0x00 .w4)) = .next { s with reply := some (.data 0x00000000) } ∧
    step (s.withEvent (.read 0x08 .w4)) = .next { s with reply := some (.data (BitVec.ofNat 32 s.crc.toNat)) } ∧
    step (s.withEvent (.read 0x0C .w4)) = .next { s with reply := some (.data s.res) } ∧
    (∀ off ∈ [0x10, 0x14, 0x18, 0x1C], step (s.withEvent (.read off .w4)) = .next { s with reply := some (.data 0x00000000) }) ∧
    (∀ off ∈ [0x04, 0x08, 0x0C, 0x10, 0x14, 0x18, 0x1C], ∀ w,
      step (s.withEvent (.write off (.b4 w))) = .next { s with reply := some .done })

/-- 20_memory.md R42: a word write to CMD executes the command, and it is the only access with a side effect. -/
def Obligations.OnlyACmdWriteHasASideEffect : Prop :=
  (∀ (s : State) (w : Word) (i : Instr), decode w = .command i → ∃ t, exec i s = .next t ∧
    step (s.withEvent (.write 0x00 (.b4 w))) = .next { t with reply := some .done }) ∧
  (∀ (s t : State) (off : Int) (n : Width), step (s.withEvent (.read off n)) = .next t → SameItems s t) ∧
  (∀ (s t : State) (off : Int) (d : WriteData), step (s.withEvent (.write off d)) = .next t → ¬ SameItems s t →
    off = 0x00 ∧ ∃ w, d = .b4 w)

/-- 20_memory.md R48: a read repeated returns the same value; a repeated CMD write need not do nothing the second time: two
equal crc.feed words feed the byte twice; writes to the other offsets have no effect. -/
def Obligations.ReadsAreIdempotentAndCmdWritesAreNot : Prop :=
  (∀ (s t : State) (off : Int) (n : Width), step (s.withEvent (.read off n)) = .next t →
    SameItems s t ∧ step (t.withEvent (.read off n)) = .next t) ∧
  (∀ (s : State) (a : Byte), core.run 2 ((s.withCommand (encode (.crcFeed a))).withCommand (encode (.crcFeed a))) =
    .next { s with crc := crc8Feed (crc8Feed s.crc a) a, reply := some .done }) ∧
  (∃ (c a : Byte), crc8Feed (crc8Feed c a) a ≠ crc8Feed c a) ∧
  (∀ (s : State) (w : Word), ∀ off ∈ [0x04, 0x08, 0x0C, 0x10, 0x14, 0x18, 0x1C],
    step (s.withEvent (.write off (.b4 w))) = .next { s with reply := some .done })

/-- 70_reset_and_hazards.md R155: every write of a command is visible to the next host access, whatever it is: a read of any
view right after it returns the value that view has in the state the command leaves. -/
def Obligations.AReadAfterACommandSeesItsResults : Prop :=
  ∀ (s : State) (w : Word) (i : Instr) (v : View), decode w = .command i →
    ∃ t, exec i s = .next t ∧
      core.run 2 ((s.withEvent (.read v.offset .w4)).withCommand w) = .next { t with reply := some (.data (viewWord v t)) }

/-- Of an access that does not start in the window the model says nothing: "the platform decides them" (20_memory.md section 2).
That it is refused is the model's choice (log entry 5). -/
def Obligations.AccessesOutsideTheWindowAreRefused : Prop :=
  ∀ (s : State) (off : Int), off < 0 ∨ 32 ≤ off →
    (∀ n, step (s.withEvent (.read off n)) = .refused .outsideWindow) ∧
    (∀ d, step (s.withEvent (.write off d)) = .refused .outsideWindow)

/-- The window stands at BLOCK_BASE, an address that is a multiple of 32, and an access at BLOCK_BASE + off is the access at
offset off (20_memory.md section 1, 00_scope.md section 5). The form of BLOCK_BASE is the model's choice (log entry 7). -/
def Obligations.WindowStandsAtAnAlignedBase : Prop :=
  32 ∣ Config.blockBase ∧
  ∀ off : Nat, (∀ n, HostEvent.memRead (Config.blockBase + off) n = .read off n) ∧
    (∀ d, HostEvent.memWrite (Config.blockBase + off) d = .write off d)

/-- With no host access to come, the block stays as it is: it acts only when it is accessed. The model's own step (log entry 2). -/
def Obligations.TheBlockIsIdleWithoutAnAccess : Prop := ∀ s : State, s.pending = [] → step s = .next s

/-- The block never gets stuck: whatever its state, a step whose access is in the window (or is a reset, or is none) answers a
next state, and takes that one access from what is to come (20_memory.md section 2, 60_exceptions.md section 1,
70_reset_and_hazards.md section 1). The model's choices in it: the next state with nothing to come (log entry 2), the next state
of a bus error (log entry 4), and that an access which starts in the window and runs past its end gets one (log entry 5). -/
def Obligations.NoAccessInTheWindowStopsTheBlock : Prop :=
  ∀ s : State,
    (∀ off n rest, s.pending = .read off n :: rest → 0 ≤ off ∧ off < 32) →
    (∀ off d rest, s.pending = .write off d :: rest → 0 ≤ off ∧ off < 32) →
    ∃ t, step s = .next t ∧ t.pending = s.pending.tail

/-! ### Rules of the whole machine -/

/-- 10_state.md R24: only the four scaler commands and reset write RES. -/
def Obligations.OnlyScalersAndResetChangeRes : Prop :=
  ∀ s t : State, step s = .next t → t.res ≠ s.res →
    NextIsReset s ∨ ∃ raw, NextIsCommand (.scaleTF32 raw) s ∨ NextIsCommand (.scaleTFix raw) s ∨
      NextIsCommand (.scaleRhF32 raw) s ∨ NextIsCommand (.scaleRhFix raw) s

/-- 10_state.md R23: what writes CRC, and what it writes; everything else leaves it. -/
def Obligations.OnlyCrcCommandsAndResetChangeCrc : Prop :=
  ∀ s t : State, step s = .next t →
    (NextIsCommand .crcInit s → t.crc = 0x00) ∧
    (∀ a, NextIsCommand (.crcFeed a) s → t.crc = crc8Feed s.crc a) ∧
    (∀ a b c, NextIsCommand (.crcVal2 a b c) s → t.crc = crc8 [a, b]) ∧
    (t.crc ≠ s.crc → NextIsReset s ∨ NextIsCommand .crcInit s ∨ (∃ a, NextIsCommand (.crcFeed a) s) ∨
      ∃ a b c, NextIsCommand (.crcVal2 a b c) s)

/-- 10_state.md R25: what writes MATCH, and what it writes; no other command changes it. -/
def Obligations.OnlyComparisonsAndClearsChangeMatch : Prop :=
  ∀ s t : State, step s = .next t →
    (∀ c, NextIsCommand (.crcCheck c) s → t.matchFlag = decide (s.crc = c)) ∧
    (∀ a b c, NextIsCommand (.crcVal2 a b c) s → t.matchFlag = decide (crc8 [a, b] = c)) ∧
    (NextIsCommand .clrStatus s ∨ NextIsReset s → t.matchFlag = false) ∧
    (t.matchFlag ≠ s.matchFlag → NextIsReset s ∨ NextIsCommand .clrStatus s ∨ (∃ c, NextIsCommand (.crcCheck c) s) ∨
      ∃ a b c, NextIsCommand (.crcVal2 a b c) s)

/-- 10_state.md R26: any command error sets ERR, and only clr.status and reset set it to 0. -/
def Obligations.ErrIsSticky : Prop :=
  ∀ s t : State, step s = .next t →
    (∀ cause, NextIsError cause s → t.err = true) ∧
    (s.err = false → t.err = true → ∃ cause, NextIsError cause s) ∧
    (s.err = true → t.err = false → NextIsReset s ∨ NextIsCommand .clrStatus s) ∧
    (NextIsReset s ∨ NextIsCommand .clrStatus s → t.err = false)

/-- 10_state.md R27: ECAUSE is written only when a command error occurs while ERR = 0, and then records its cause, or when
clr.status or reset sets it to 0x0; a cause is 0x1 for a reserved opcode and 0x2 for a reserved field of a defined one, so
0x3 to 0xF are never produced. -/
def Obligations.EcauseKeepsTheFirstCause : Prop :=
  ∀ s t : State, step s = .next t →
    (∀ cause, NextIsError cause s → s.err = false → t.ecause = cause.code) ∧
    (NextIsReset s ∨ NextIsCommand .clrStatus s → t.ecause = 0x0) ∧
    (t.ecause ≠ s.ecause → (t.ecause = 0x0 ∧ (NextIsReset s ∨ NextIsCommand .clrStatus s)) ∨
      (s.err = false ∧ ∃ w rest, s.pending = HostEvent.writeCmd w :: rest ∧
        ((t.ecause = 0x1 ∧ 8 ≤ (w.extractLsb' 28 4).toNat) ∨
          (t.ecause = 0x2 ∧ (w.extractLsb' 28 4).toNat < 8 ∧ decode w = .cmdError .reservedField))))

/-- Every step keeps the legal states: ECAUSE is 0x0, 0x1 or 0x2, and is 0x0 exactly when ERR = 0 (10_state.md section 5). -/
def Obligations.EveryStepKeepsTheErrorInvariant : Prop := ∀ s t : State, s.Inv → step s = .next t → t.Inv

/-- The reset state is legal (10_state.md section 8). -/
def Obligations.ResetMeetsTheErrorInvariant : Prop := State.reset.Inv

/-! ### The CRC-8 function -/

/-- 40_crc.md R82: the 9-bit reading of the source's round, and of the whole feed, agrees with the 8-bit one. -/
def Obligations.NineBitReadingAgrees : Prop :=
  (∀ c : Byte, nineBitRound c = crc8Round c) ∧ (∀ c b : Byte, nineBitFeed c b = crc8Feed c b)

/-- `crc8` is the remainder of the message, shifted up by 8 places, by x^8 + x^5 + x^4 + 1 over GF(2), for every message: what
"CRC-8 with polynomial 0x131, MSB-first, zero initial register, no final XOR" means (40_crc.md section 1). -/
def Obligations.CrcIsThePolynomialRemainder : Prop :=
  ∀ bytes : List Byte, bytePoly (crc8 bytes) = (messagePoly bytes * Polynomial.X ^ 8) %ₘ crcPolynomial

/-- Residue (40_crc.md section 3, law (a)). -/
def Obligations.ResidueOfAnIntactPayloadIsZero : Prop := ∀ data : List Byte, crc8 (data ++ [crc8 data]) = 0x00

/-- Linearity (40_crc.md section 3, law (b)). -/
def Obligations.CrcIsLinear : Prop :=
  ∀ x y : List Byte, x.length = y.length → crc8 (List.zipWith (· ^^^ ·) x y) = crc8 x ^^^ crc8 y

/-- Single-bit detection (40_crc.md section 3, law (c)): a crc.val2 of a valid frame with any one of its 24 bits flipped answers
MATCH = 0, and of the frame itself MATCH = 1. -/
def Obligations.EverySingleBitFlipIsDetected : Prop :=
  ∀ (s : State) (d0 d1 : Byte) (k : Nat), k < 8 →
    let flip : Byte := 1#8 <<< k
    (∃ t, exec (.crcVal2 d0 d1 (crc8 [d0, d1])) s = .next t ∧ t.matchFlag = true) ∧
    (∃ t, exec (.crcVal2 (d0 ^^^ flip) d1 (crc8 [d0, d1])) s = .next t ∧ t.matchFlag = false) ∧
    (∃ t, exec (.crcVal2 d0 (d1 ^^^ flip) (crc8 [d0, d1])) s = .next t ∧ t.matchFlag = false) ∧
    (∃ t, exec (.crcVal2 d0 d1 (crc8 [d0, d1] ^^^ flip)) s = .next t ∧ t.matchFlag = false)

/-- State injectivity (40_crc.md section 3, law (d)). -/
def Obligations.FeedingAByteIsABijection : Prop := ∀ b : Byte, Function.Bijective fun c => crc8Feed c b

/-- 40_crc.md R87: streaming an n-byte payload, from any state and for every n ≥ 0, leaves CRC = crc8 of it and MATCH = (CRC = C)
and nothing else changed; for n = 2 it leaves the same CRC and MATCH as crc.val2. -/
def Obligations.StreamingValidatesAnyPayload : Prop :=
  (∀ (s : State) (ds : List Byte) (c : Byte) (rest : List HostEvent),
    core.run (ds.length + 2) { s with pending := commandWrites (.crcInit :: ds.map .crcFeed ++ [.crcCheck c]) ++ rest } =
      .next { s with crc := crc8 ds, matchFlag := decide (crc8 ds = c), pending := rest, reply := some .done }) ∧
  (∀ (s : State) (d0 d1 c : Byte) (rest : List HostEvent),
    core.run 4 { s with pending := commandWrites [.crcInit, .crcFeed d0, .crcFeed d1, .crcCheck c] ++ rest } =
      core.run 1 { s with pending := commandWrites [.crcVal2 d0 d1 c] ++ rest })

/-! ### The scaler -/

/-- 41_scale.md R108: for every RAW and every scaler command, RAW and RAW | 0x0003 write the same RES, and each completes. -/
def Obligations.StatusBitsDoNotInfluenceTheResult : Prop :=
  ∀ (raw : Raw) (s : State),
    (∃ t, exec (.scaleTF32 raw) s = .next t ∧ exec (.scaleTF32 (raw ||| 0x0003)) s = .next t) ∧
    (∃ t, exec (.scaleTFix raw) s = .next t ∧ exec (.scaleTFix (raw ||| 0x0003)) s = .next t) ∧
    (∃ t, exec (.scaleRhF32 raw) s = .next t ∧ exec (.scaleRhF32 (raw ||| 0x0003)) s = .next t) ∧
    (∃ t, exec (.scaleRhFix raw) s = .next t ∧ exec (.scaleRhFix (raw ||| 0x0003)) s = .next t)

/-- 41_scale.md R109: the sentinel RAW = 0x0001 converts to exactly the floor of each formula. -/
def Obligations.SentinelConvertsToTheFloor : Prop :=
  ∀ s : State,
    exec (.scaleTF32 0x0001) s = .next { s with res := 0xC23B6666 } ∧
    exec (.scaleTFix 0x0001) s = .next { s with res := BitVec.ofInt 32 (-4685) } ∧
    exec (.scaleRhF32 0x0001) s = .next { s with res := 0xC0C00000 } ∧
    exec (.scaleRhFix 0x0001) s = .next { s with res := BitVec.ofInt 32 (-600) } ∧
    temp 0x0001 = -46.85 ∧ hum 0x0001 = -6

/-- 41_scale.md R110: the bounds at raw 0 and raw 65535, within the precision of binary32 (half a unit in the last place: 2^-19
at 46.85 and 2^-17 at 128.86; 2^-18 at 118.99237). -/
def Obligations.BoundsAtTheEndsOfTheRange : Prop :=
  (∃ v, f32ToReal (tempF32 0) = some v ∧ |v - (-46.85)| ≤ 1 / 2 ^ 19) ∧ f32ToReal (humF32 0) = some (-6) ∧
  maskedValue 65535 = 65532 ∧
  (∃ v, f32ToReal (tempF32 65535) = some v ∧ |v - temp 65535| ≤ 1 / 2 ^ 17 ∧ |v - 128.86| < 0.005) ∧
  (∃ v, f32ToReal (humF32 65535) = some v ∧ |v - hum 65535| ≤ 1 / 2 ^ 18 ∧ |v - 118.99237| < 0.00001)

/-- 41_scale.md R103: the fixed-point encoding is floor(100 V + 1/2), differs from 100 V by at most 1/2, with its ranges and its
ties, and no intermediate value leaves a signed 32-bit integer. -/
def Obligations.FixedPointRoundsToTheNearestCentiUnit : Prop :=
  ∀ raw : Raw,
    let m : Int := maskedValue raw
    let nT : Int := -4685 * 65536 + 17572 * m
    let nRh : Int := -600 * 65536 + 12500 * m
    (tempFix raw).toInt = (nT + 32768) / 65536 ∧ (tempFix raw).toInt = ⌊100 * temp raw + 1 / 2⌋ ∧
    (humFix raw).toInt = (nRh + 32768) / 65536 ∧ (humFix raw).toInt = ⌊100 * hum raw + 1 / 2⌋ ∧
    -307003392 ≤ nT + 32768 ∧ nT + 32768 ≤ 844524912 ∧ -39288832 ≤ nRh + 32768 ∧ nRh + 32768 ≤ 779861168 ∧
    -4685 ≤ (tempFix raw).toInt ∧ (tempFix raw).toInt ≤ 12886 ∧ -600 ≤ (humFix raw).toInt ∧ (humFix raw).toInt ≤ 11899 ∧
    |((tempFix raw).toInt : ℚ) - 100 * temp raw| ≤ 1 / 2 ∧ |((humFix raw).toInt : ℚ) - 100 * hum raw| ≤ 1 / 2 ∧
    (((tempFix raw).toInt : ℚ) - 100 * temp raw = 1 / 2 ↔ maskedValue raw ∈ [8192, 24576, 40960, 57344]) ∧
    (((humFix raw).toInt : ℚ) - 100 * hum raw = 1 / 2 ↔ maskedValue raw ∈ [8192, 24576, 40960, 57344])

/-- 41_scale.md R102: the binary32 result is V rounded once to nearest, ties to even; V is never 0, and the result is always a
normal number; the smallest magnitudes are at m = 17472 and m = 3144. -/
def Obligations.BinaryResultIsTheNearestNormalNumber : Prop :=
  ∀ raw : Raw,
    NearestEven (tempF32 raw) (temp raw) ∧ NearestEven (humF32 raw) (hum raw) ∧ temp raw ≠ 0 ∧ hum raw ≠ 0 ∧
    f32IsNormal (tempF32 raw) = true ∧ f32IsNormal (humF32 raw) = true ∧ |temp 17472| ≤ |temp raw| ∧ |hum 3144| ≤ |hum raw|

/-- `round_f32` of any rational whose magnitude does not round past the largest finite number is the binary32 value nearest
it, with ties to the even significand (00_scope.md section 5). Zero, the subnormals and the edge of overflow, which it covers,
are PRESUMED from IEEE 754 and no rule of the spec (log entry 10). -/
def Obligations.RoundF32IsNearestTiesToEven : Prop :=
  ∀ (n : Int) (d : Nat), 0 < d → |(n : ℚ) / d| < 2 ^ 128 - 2 ^ 103 → NearestEven (roundF32 n d) ((n : ℚ) / d)

/-! ### The assembler -/

/-- The words of the assembler's lines, with an operand out of range an error and never truncated (30_encoding.md section 5). -/
def Obligations.AssemblerEncodesAndNeverTruncates : Prop :=
  assemble .nop = some [0x00000000] ∧ assemble .crcInit = some [0x10000000] ∧ assemble .clrStatus = some [0x70000000] ∧
  (∀ a, assemble (.crcFeed a) = if a ≤ 0xFF then some [BitVec.ofNat 32 (0x20000000 + a * 0x10000)] else none) ∧
  (∀ c, assemble (.crcCheck c) = if c ≤ 0xFF then some [BitVec.ofNat 32 (0x30000000 + c)] else none) ∧
  (∀ a b c, assemble (.crcVal2 a b c) =
    if a ≤ 0xFF ∧ b ≤ 0xFF ∧ c ≤ 0xFF then some [BitVec.ofNat 32 (0x40000000 + a * 0x10000 + b * 0x100 + c)] else none) ∧
  (∀ r, assemble (.scaleTF32 r) = if r ≤ 0xFFFF then some [BitVec.ofNat 32 (0x50000000 + r * 0x100)] else none) ∧
  (∀ r, assemble (.scaleTFix r) = if r ≤ 0xFFFF then some [BitVec.ofNat 32 (0x51000000 + r * 0x100)] else none) ∧
  (∀ r, assemble (.scaleRhF32 r) = if r ≤ 0xFFFF then some [BitVec.ofNat 32 (0x60000000 + r * 0x100)] else none) ∧
  (∀ r, assemble (.scaleRhFix r) = if r ≤ 0xFFFF then some [BitVec.ofNat 32 (0x61000000 + r * 0x100)] else none) ∧
  (∀ w, assemble (.rawWord w) = if w ≤ 0xFFFFFFFF then some [BitVec.ofNat 32 w] else none)

/-- 30_encoding.md R71: each pseudo-instruction assembles to its expansion, and is an error when an operand of it is. -/
def Obligations.PseudoInstructionsExpandAsDefined : Prop :=
  (∀ r, assemble (.scaleT r) = assemble (.scaleTF32 r)) ∧ (∀ r, assemble (.scaleRh r) = assemble (.scaleRhF32 r)) ∧
  (∀ a c, assemble (.crcVal1 a c) = assemble (.crcValn [a] c)) ∧
  (∀ d0 d1 c, assemble (.crcFrame d0 d1 c) = assemble (.crcVal2 d0 d1 c)) ∧
  (∀ ds c, assemble (.crcValn ds c) =
    match assemble .crcInit, (ds.mapM fun d => assemble (.crcFeed d)), assemble (.crcCheck c) with
    | some i, some fs, some k => some (i ++ fs.flatten ++ k)
    | _, _, _ => none)
end

