-- ==== Sys2Proof/Laws/Crc.lean ====
section
/-! SUPPORT. The CRC-8 round and feed as linear, invertible maps (40_crc.md R80, R88). -/

namespace Sys2Proof.Machine

/-- One round of an exclusive or is the exclusive or of the rounds. -/
theorem crc8Round_xor (a b : Byte) : crc8Round (a ^^^ b) = crc8Round a ^^^ crc8Round b := by
  have key : ∀ (p q : Bool) (x y k : Byte), (if (p ^^ q) then (x ^^^ y) ^^^ k else x ^^^ y) =
      (if p then x ^^^ k else x) ^^^ (if q then y ^^^ k else y) := by
    intro p q x y k
    cases p <;> cases q <;> simp <;> ext i hi <;> simp [Bool.xor_comm, Bool.xor_left_comm]
  unfold crc8Round
  rw [BitVec.getLsbD_xor, show (a ^^^ b) <<< 1 = a <<< 1 ^^^ b <<< 1 by ext i hi; simp; grind]
  exact key _ _ _ _ _

theorem crc8Rounds_xor (n : Nat) (a b : Byte) : crc8Rounds n (a ^^^ b) = crc8Rounds n a ^^^ crc8Rounds n b := by
  induction n generalizing a b with
  | zero => rfl
  | succ n ih => rw [crc8Rounds, crc8Round_xor, ih]; rfl

/-- Feeding is linear in the register and the byte together. -/
theorem crc8Feed_xor (c d a b : Byte) : crc8Feed (c ^^^ d) (a ^^^ b) = crc8Feed c a ^^^ crc8Feed d b := by
  rw [crc8Feed, crc8Feed, crc8Feed, ← crc8Rounds_xor]
  congr 1; ext i hi; simp; grind

/-- Only zero rounds to zero: 0x31 has bit 0 set (40_crc.md R88). -/
theorem crc8Round_eq_zero (c : Byte) : crc8Round c = 0 → c = 0 := by
  revert c; decide +kernel

theorem crc8Round_injective : Function.Injective crc8Round := by
  intro a b h
  have h0 : crc8Round (a ^^^ b) = 0 := by rw [crc8Round_xor, h, BitVec.xor_self]; rfl
  simpa using crc8Round_eq_zero _ h0

theorem crc8Rounds_injective (n : Nat) : Function.Injective (crc8Rounds n) := by
  induction n with
  | zero => exact fun a b h => h
  | succ n ih => exact fun a b h => crc8Round_injective (ih h)

/-- A register and the same byte cancel. -/
@[simp] theorem crc8Feed_self (c : Byte) : crc8Feed c c = 0 := by
  rw [crc8Feed, BitVec.xor_self]; decide

/-- A payload in two parts is fed part after part (40_crc.md R81). -/
theorem crc8_append (x y : List Byte) : crc8 (x ++ y) = y.foldl crc8Feed (crc8 x) := by
  rw [crc8, List.foldl_append]; rfl

@[simp] theorem crc8_nil : crc8 [] = 0 := rfl

@[simp] theorem crc8_pair (a b : Byte) : crc8 [a, b] = crc8Feed (crc8Feed 0 a) b := rfl

end Sys2Proof.Machine
end

