-- ==== Sys2Proof/Laws/Decode.lean ====
section
/-! SUPPORT. Format W: what the field extractors read from a word put together by `packW`, what RSVMASK says in terms of the
fields, and what the decoder answers for each opcode (30_encoding.md R60, R61, R65, R68). -/

namespace Sys2Proof

/-- A field of a word as a number. -/
theorem extract_toNat (w : Word) (start len : Nat) : (w.extractLsb' start len).toNat = w.toNat / 2 ^ start % 2 ^ len := by
  simp [BitVec.extractLsb'_toNat, Nat.shiftRight_eq_div_pow]

/-- A word of format W as a number. -/
theorem packW_toNat (op : BitVec 4) (rsv : BitVec 3) (f : BitVec 1) (a b c : Byte) :
    (packW op rsv f a b c).toNat = op.toNat * 2 ^ 28 + rsv.toNat * 2 ^ 25 + f.toNat * 2 ^ 24 + a.toNat * 2 ^ 16 +
      b.toNat * 2 ^ 8 + c.toNat := by
  have hr := rsv.isLt; have hf := f.isLt; have ha := a.isLt; have hb := b.isLt; have hc := c.isLt
  show (op ++ rsv ++ f ++ a ++ b ++ c : BitVec (4 + 3 + 1 + 8 + 8 + 8)).toNat = _
  simp only [BitVec.toNat_append]
  rw [← Nat.shiftLeft_add_eq_or_of_lt hr, ← Nat.shiftLeft_add_eq_or_of_lt hf, ← Nat.shiftLeft_add_eq_or_of_lt ha,
    ← Nat.shiftLeft_add_eq_or_of_lt hb, ← Nat.shiftLeft_add_eq_or_of_lt hc]
  simp only [Nat.shiftLeft_eq]
  omega

@[simp] theorem fieldOp_packW (op : BitVec 4) (rsv : BitVec 3) (f : BitVec 1) (a b c : Byte) :
    fieldOp (packW op rsv f a b c) = op := by
  have := op.isLt; have := rsv.isLt; have := f.isLt; have := a.isLt; have := b.isLt; have := c.isLt
  apply BitVec.eq_of_toNat_eq
  rw [fieldOp, extract_toNat, packW_toNat]
  omega

@[simp] theorem fieldRsv_packW (op : BitVec 4) (rsv : BitVec 3) (f : BitVec 1) (a b c : Byte) :
    fieldRsv (packW op rsv f a b c) = rsv := by
  have := op.isLt; have := rsv.isLt; have := f.isLt; have := a.isLt; have := b.isLt; have := c.isLt
  apply BitVec.eq_of_toNat_eq
  rw [fieldRsv, extract_toNat, packW_toNat]
  omega

@[simp] theorem fieldF_packW (op : BitVec 4) (rsv : BitVec 3) (f : BitVec 1) (a b c : Byte) :
    fieldF (packW op rsv f a b c) = f := by
  have := op.isLt; have := rsv.isLt; have := f.isLt; have := a.isLt; have := b.isLt; have := c.isLt
  apply BitVec.eq_of_toNat_eq
  rw [fieldF, extract_toNat, packW_toNat]
  omega

@[simp] theorem fieldA_packW (op : BitVec 4) (rsv : BitVec 3) (f : BitVec 1) (a b c : Byte) :
    fieldA (packW op rsv f a b c) = a := by
  have := op.isLt; have := rsv.isLt; have := f.isLt; have := a.isLt; have := b.isLt; have := c.isLt
  apply BitVec.eq_of_toNat_eq
  rw [fieldA, extract_toNat, packW_toNat]
  omega

@[simp] theorem fieldB_packW (op : BitVec 4) (rsv : BitVec 3) (f : BitVec 1) (a b c : Byte) :
    fieldB (packW op rsv f a b c) = b := by
  have := op.isLt; have := rsv.isLt; have := f.isLt; have := a.isLt; have := b.isLt; have := c.isLt
  apply BitVec.eq_of_toNat_eq
  rw [fieldB, extract_toNat, packW_toNat]
  omega

@[simp] theorem fieldC_packW (op : BitVec 4) (rsv : BitVec 3) (f : BitVec 1) (a b c : Byte) :
    fieldC (packW op rsv f a b c) = c := by
  have := op.isLt; have := rsv.isLt; have := f.isLt; have := a.isLt; have := b.isLt; have := c.isLt
  apply BitVec.eq_of_toNat_eq
  rw [fieldC, extract_toNat, packW_toNat]
  omega

@[simp] theorem fieldRaw_packW (op : BitVec 4) (rsv : BitVec 3) (f : BitVec 1) (a b c : Byte) :
    fieldRaw (packW op rsv f a b c) = a ++ b := by
  have := op.isLt; have := rsv.isLt; have := f.isLt; have := a.isLt; have hb := b.isLt; have := c.isLt
  apply BitVec.eq_of_toNat_eq
  rw [fieldRaw, extract_toNat, packW_toNat, BitVec.toNat_append, ← Nat.shiftLeft_add_eq_or_of_lt hb, Nat.shiftLeft_eq]
  omega

/-- Every word is its six fields put together again (30_encoding.md R60). -/
theorem packW_fields (w : Word) : packW (fieldOp w) (fieldRsv w) (fieldF w) (fieldA w) (fieldB w) (fieldC w) = w := by
  have := w.isLt
  apply BitVec.eq_of_toNat_eq
  rw [packW_toNat]
  simp only [fieldOp, fieldRsv, fieldF, fieldA, fieldB, fieldC, extract_toNat]
  omega

/-- Two words with the same six fields are the same word. -/
theorem word_ext {v w : Word} (h1 : fieldOp v = fieldOp w) (h2 : fieldRsv v = fieldRsv w) (h3 : fieldF v = fieldF w)
    (h4 : fieldA v = fieldA w) (h5 : fieldB v = fieldB w) (h6 : fieldC v = fieldC w) : v = w := by
  rw [← packW_fields v, ← packW_fields w, h1, h2, h3, h4, h5, h6]

/-- The field of a masked word is the field masked. -/
theorem extract_and (v w : Word) (start len : Nat) :
    (v &&& w).extractLsb' start len = v.extractLsb' start len &&& w.extractLsb' start len := BitVec.extractLsb'_and

/-- The F bit as a bit of the word (30_encoding.md R61). -/
theorem fieldF_eq_zero_iff (w : Word) : fieldF w = 0 ↔ w.getLsbD 24 = false := by
  have : fieldF w = BitVec.ofBool (w.getLsbD 24) := by
    apply BitVec.eq_of_getLsbD_eq
    intro i hi
    obtain rfl : i = 0 := by omega
    simp [fieldF]
  rw [this]
  cases w.getLsbD 24 <;> decide

/-- The two halves of RAW put together are RAW (30_encoding.md R63). -/
@[simp] theorem raw_halves (raw : Raw) : raw.extractLsb' 8 8 ++ raw.extractLsb' 0 8 = raw := by
  have h := raw.isLt
  apply BitVec.eq_of_toNat_eq
  rw [BitVec.toNat_append, ← Nat.shiftLeft_add_eq_or_of_lt (BitVec.isLt _), Nat.shiftLeft_eq]
  simp only [BitVec.extractLsb'_toNat, Nat.shiftRight_eq_div_pow]
  omega

/-- `RAW = w[23:8] = A : B` (30_encoding.md R63). -/
theorem fieldRaw_eq_append (w : Word) : fieldRaw w = fieldA w ++ fieldB w := by
  conv_lhs => rw [← packW_fields w]
  exact fieldRaw_packW _ _ _ _ _ _

/-- The bits of a mask of `len` ones from bit `start` up. -/
theorem getLsbD_mask (start len i : Nat) (hi : i < 32) :
    (BitVec.ofNat 32 ((2 ^ len - 1) <<< start)).getLsbD i = decide (start ≤ i ∧ i < start + len) := by
  rw [BitVec.getLsbD_ofNat, Nat.testBit_shiftLeft, Nat.testBit_two_pow_sub_one]
  by_cases h1 : start ≤ i <;> simp [hi, h1]
  omega

/-- A word has no bit under such a mask exactly when the field there is zero. -/
theorem and_mask_eq_zero_iff (w : Word) (start len : Nat) (h : start + len ≤ 32) :
    w &&& BitVec.ofNat 32 ((2 ^ len - 1) <<< start) = 0 ↔ w.extractLsb' start len = 0 := by
  constructor
  · intro h0
    apply BitVec.eq_of_getLsbD_eq
    intro i hi
    have := congrArg (fun v => BitVec.getLsbD v (start + i)) h0
    simp only [BitVec.getLsbD_and, getLsbD_mask start len (start + i) (by omega)] at this
    simpa [hi] using this
  · intro h0
    apply BitVec.eq_of_getLsbD_eq
    intro i hi
    rw [BitVec.getLsbD_and, getLsbD_mask start len i hi]
    by_cases h1 : start ≤ i ∧ i < start + len
    · have := congrArg (fun v => BitVec.getLsbD v (i - start)) h0
      have e : start + (i - start) = i := by omega
      have l : i - start < len := by omega
      simp only [BitVec.getLsbD_extractLsb', l, e] at this
      simpa [h1] using this
    · simp [h1]

/-- A word has no bit under two masks together exactly when it has none under either. -/
theorem and_or_eq_zero_iff (w m n : Word) : w &&& (m ||| n) = 0 ↔ w &&& m = 0 ∧ w &&& n = 0 := by
  constructor
  · intro h
    constructor <;> apply BitVec.eq_of_getLsbD_eq <;> intro i hi <;>
      have := congrArg (fun v => BitVec.getLsbD v i) h <;> simp [hi] at this ⊢ <;> tauto
  · rintro ⟨h1, h2⟩
    rw [show w &&& (m ||| n) = (w &&& m) ||| (w &&& n) by ext; simp [Bool.and_or_distrib_left], h1, h2]; rfl

/-- RSVMASK 0x0FFFFFFF in terms of the fields (30_encoding.md R65). -/
theorem and_0x0FFFFFFF_eq_zero_iff (w : Word) : w &&& 0x0FFFFFFF = 0 ↔ fieldRsv w = 0 ∧ fieldF w = 0 ∧ fieldA w = 0 ∧ fieldB w = 0 ∧ fieldC w = 0 := by
  rw [show (0x0FFFFFFF : Word) = BitVec.ofNat 32 ((2 ^ 3 - 1) <<< 25) ||| (BitVec.ofNat 32 ((2 ^ 1 - 1) <<< 24) ||| (BitVec.ofNat 32 ((2 ^ 8 - 1) <<< 16) ||| (BitVec.ofNat 32 ((2 ^ 8 - 1) <<< 8) ||| (BitVec.ofNat 32 ((2 ^ 8 - 1) <<< 0))))) by decide]
  simp only [and_or_eq_zero_iff]
  rw [and_mask_eq_zero_iff w 25 3 (by decide), and_mask_eq_zero_iff w 24 1 (by decide), and_mask_eq_zero_iff w 16 8 (by decide), and_mask_eq_zero_iff w 8 8 (by decide), and_mask_eq_zero_iff w 0 8 (by decide)]
  rfl

/-- RSVMASK 0x0F00FFFF in terms of the fields (30_encoding.md R65). -/
theorem and_0x0F00FFFF_eq_zero_iff (w : Word) : w &&& 0x0F00FFFF = 0 ↔ fieldRsv w = 0 ∧ fieldF w = 0 ∧ fieldB w = 0 ∧ fieldC w = 0 := by
  rw [show (0x0F00FFFF : Word) = BitVec.ofNat 32 ((2 ^ 3 - 1) <<< 25) ||| (BitVec.ofNat 32 ((2 ^ 1 - 1) <<< 24) ||| (BitVec.ofNat 32 ((2 ^ 8 - 1) <<< 8) ||| (BitVec.ofNat 32 ((2 ^ 8 - 1) <<< 0)))) by decide]
  simp only [and_or_eq_zero_iff]
  rw [and_mask_eq_zero_iff w 25 3 (by decide), and_mask_eq_zero_iff w 24 1 (by decide), and_mask_eq_zero_iff w 8 8 (by decide), and_mask_eq_zero_iff w 0 8 (by decide)]
  rfl

/-- RSVMASK 0x0FFFFF00 in terms of the fields (30_encoding.md R65). -/
theorem and_0x0FFFFF00_eq_zero_iff (w : Word) : w &&& 0x0FFFFF00 = 0 ↔ fieldRsv w = 0 ∧ fieldF w = 0 ∧ fieldA w = 0 ∧ fieldB w = 0 := by
  rw [show (0x0FFFFF00 : Word) = BitVec.ofNat 32 ((2 ^ 3 - 1) <<< 25) ||| (BitVec.ofNat 32 ((2 ^ 1 - 1) <<< 24) ||| (BitVec.ofNat 32 ((2 ^ 8 - 1) <<< 16) ||| (BitVec.ofNat 32 ((2 ^ 8 - 1) <<< 8)))) by decide]
  simp only [and_or_eq_zero_iff]
  rw [and_mask_eq_zero_iff w 25 3 (by decide), and_mask_eq_zero_iff w 24 1 (by decide), and_mask_eq_zero_iff w 16 8 (by decide), and_mask_eq_zero_iff w 8 8 (by decide)]
  rfl

/-- RSVMASK 0x0F000000 in terms of the fields (30_encoding.md R65). -/
theorem and_0x0F000000_eq_zero_iff (w : Word) : w &&& 0x0F000000 = 0 ↔ fieldRsv w = 0 ∧ fieldF w = 0 := by
  rw [show (0x0F000000 : Word) = BitVec.ofNat 32 ((2 ^ 3 - 1) <<< 25) ||| (BitVec.ofNat 32 ((2 ^ 1 - 1) <<< 24)) by decide]
  simp only [and_or_eq_zero_iff]
  rw [and_mask_eq_zero_iff w 25 3 (by decide), and_mask_eq_zero_iff w 24 1 (by decide)]
  rfl

/-- RSVMASK 0x0E0000FF in terms of the fields (30_encoding.md R65). -/
theorem and_0x0E0000FF_eq_zero_iff (w : Word) : w &&& 0x0E0000FF = 0 ↔ fieldRsv w = 0 ∧ fieldC w = 0 := by
  rw [show (0x0E0000FF : Word) = BitVec.ofNat 32 ((2 ^ 3 - 1) <<< 25) ||| (BitVec.ofNat 32 ((2 ^ 8 - 1) <<< 0)) by decide]
  simp only [and_or_eq_zero_iff]
  rw [and_mask_eq_zero_iff w 25 3 (by decide), and_mask_eq_zero_iff w 0 8 (by decide)]
  rfl

/-- A reserved opcode decodes to its cause, whatever the other bits are (30_encoding.md R66). -/
theorem decode_reservedOp (w : Word) (h : 0x8#4 ≤ fieldOp w) : decode w = .cmdError .reservedOp := if_pos h

/-- Opcode 0x0: nop, or a reserved field that is not zero (30_encoding.md R68). -/
theorem decode_op0 (w : Word) (h : fieldOp w = 0) : decode w =
    if fieldRsv w = 0 ∧ fieldF w = 0 ∧ fieldA w = 0 ∧ fieldB w = 0 ∧ fieldC w = 0 then .command .nop else .cmdError .reservedField := by
  have hm := and_0x0FFFFFFF_eq_zero_iff w
  rw [show (0x0FFFFFFF : Word) = rsvMask (fieldOp w) by rw [h]; rfl] at hm
  have hop : (fieldOp w).toNat = 0 := by rw [h]; rfl
  rw [decode, if_neg (by rw [h]; decide)]
  by_cases hz : w &&& rsvMask (fieldOp w) = 0
  · rw [if_neg (not_not_intro hz), if_pos (hm.mp hz)]; simp only [hop]
  · rw [if_pos hz, if_neg (mt hm.mpr hz)]

/-- Opcode 0x1: crc.init, or a reserved field that is not zero (30_encoding.md R68). -/
theorem decode_op1 (w : Word) (h : fieldOp w = 1) : decode w =
    if fieldRsv w = 0 ∧ fieldF w = 0 ∧ fieldA w = 0 ∧ fieldB w = 0 ∧ fieldC w = 0 then .command .crcInit else .cmdError .reservedField := by
  have hm := and_0x0FFFFFFF_eq_zero_iff w
  rw [show (0x0FFFFFFF : Word) = rsvMask (fieldOp w) by rw [h]; rfl] at hm
  have hop : (fieldOp w).toNat = 1 := by rw [h]; rfl
  rw [decode, if_neg (by rw [h]; decide)]
  by_cases hz : w &&& rsvMask (fieldOp w) = 0
  · rw [if_neg (not_not_intro hz), if_pos (hm.mp hz)]; simp only [hop]
  · rw [if_pos hz, if_neg (mt hm.mpr hz)]

/-- Opcode 0x2: crc.feed, or a reserved field that is not zero (30_encoding.md R68). -/
theorem decode_op2 (w : Word) (h : fieldOp w = 2) : decode w =
    if fieldRsv w = 0 ∧ fieldF w = 0 ∧ fieldB w = 0 ∧ fieldC w = 0 then .command (.crcFeed (fieldA w)) else .cmdError .reservedField := by
  have hm := and_0x0F00FFFF_eq_zero_iff w
  rw [show (0x0F00FFFF : Word) = rsvMask (fieldOp w) by rw [h]; rfl] at hm
  have hop : (fieldOp w).toNat = 2 := by rw [h]; rfl
  rw [decode, if_neg (by rw [h]; decide)]
  by_cases hz : w &&& rsvMask (fieldOp w) = 0
  · rw [if_neg (not_not_intro hz), if_pos (hm.mp hz)]; simp only [hop]
  · rw [if_pos hz, if_neg (mt hm.mpr hz)]

/-- Opcode 0x3: crc.check, or a reserved field that is not zero (30_encoding.md R68). -/
theorem decode_op3 (w : Word) (h : fieldOp w = 3) : decode w =
    if fieldRsv w = 0 ∧ fieldF w = 0 ∧ fieldA w = 0 ∧ fieldB w = 0 then .command (.crcCheck (fieldC w)) else .cmdError .reservedField := by
  have hm := and_0x0FFFFF00_eq_zero_iff w
  rw [show (0x0FFFFF00 : Word) = rsvMask (fieldOp w) by rw [h]; rfl] at hm
  have hop : (fieldOp w).toNat = 3 := by rw [h]; rfl
  rw [decode, if_neg (by rw [h]; decide)]
  by_cases hz : w &&& rsvMask (fieldOp w) = 0
  · rw [if_neg (not_not_intro hz), if_pos (hm.mp hz)]; simp only [hop]
  · rw [if_pos hz, if_neg (mt hm.mpr hz)]

/-- Opcode 0x4: crc.val2, or a reserved field that is not zero (30_encoding.md R68). -/
theorem decode_op4 (w : Word) (h : fieldOp w = 4) : decode w =
    if fieldRsv w = 0 ∧ fieldF w = 0 then .command (.crcVal2 (fieldA w) (fieldB w) (fieldC w)) else .cmdError .reservedField := by
  have hm := and_0x0F000000_eq_zero_iff w
  rw [show (0x0F000000 : Word) = rsvMask (fieldOp w) by rw [h]; rfl] at hm
  have hop : (fieldOp w).toNat = 4 := by rw [h]; rfl
  rw [decode, if_neg (by rw [h]; decide)]
  by_cases hz : w &&& rsvMask (fieldOp w) = 0
  · rw [if_neg (not_not_intro hz), if_pos (hm.mp hz)]; simp only [hop]
  · rw [if_pos hz, if_neg (mt hm.mpr hz)]

/-- Opcode 0x5: the temperature scalers, or a reserved field that is not zero (30_encoding.md R68). -/
theorem decode_op5 (w : Word) (h : fieldOp w = 5) : decode w =
    if fieldRsv w = 0 ∧ fieldC w = 0 then (if fieldF w = 0 then .command (.scaleTF32 (fieldRaw w)) else .command (.scaleTFix (fieldRaw w))) else .cmdError .reservedField := by
  have hm := and_0x0E0000FF_eq_zero_iff w
  rw [show (0x0E0000FF : Word) = rsvMask (fieldOp w) by rw [h]; rfl] at hm
  have hop : (fieldOp w).toNat = 5 := by rw [h]; rfl
  rw [decode, if_neg (by rw [h]; decide)]
  by_cases hz : w &&& rsvMask (fieldOp w) = 0
  · rw [if_neg (not_not_intro hz), if_pos (hm.mp hz)]; simp only [hop]
  · rw [if_pos hz, if_neg (mt hm.mpr hz)]

/-- Opcode 0x6: the humidity scalers, or a reserved field that is not zero (30_encoding.md R68). -/
theorem decode_op6 (w : Word) (h : fieldOp w = 6) : decode w =
    if fieldRsv w = 0 ∧ fieldC w = 0 then (if fieldF w = 0 then .command (.scaleRhF32 (fieldRaw w)) else .command (.scaleRhFix (fieldRaw w))) else .cmdError .reservedField := by
  have hm := and_0x0E0000FF_eq_zero_iff w
  rw [show (0x0E0000FF : Word) = rsvMask (fieldOp w) by rw [h]; rfl] at hm
  have hop : (fieldOp w).toNat = 6 := by rw [h]; rfl
  rw [decode, if_neg (by rw [h]; decide)]
  by_cases hz : w &&& rsvMask (fieldOp w) = 0
  · rw [if_neg (not_not_intro hz), if_pos (hm.mp hz)]; simp only [hop]
  · rw [if_pos hz, if_neg (mt hm.mpr hz)]

/-- Opcode 0x7: clr.status, or a reserved field that is not zero (30_encoding.md R68). -/
theorem decode_op7 (w : Word) (h : fieldOp w = 7) : decode w =
    if fieldRsv w = 0 ∧ fieldF w = 0 ∧ fieldA w = 0 ∧ fieldB w = 0 ∧ fieldC w = 0 then .command .clrStatus else .cmdError .reservedField := by
  have hm := and_0x0FFFFFFF_eq_zero_iff w
  rw [show (0x0FFFFFFF : Word) = rsvMask (fieldOp w) by rw [h]; rfl] at hm
  have hop : (fieldOp w).toNat = 7 := by rw [h]; rfl
  rw [decode, if_neg (by rw [h]; decide)]
  by_cases hz : w &&& rsvMask (fieldOp w) = 0
  · rw [if_neg (not_not_intro hz), if_pos (hm.mp hz)]; simp only [hop]
  · rw [if_pos hz, if_neg (mt hm.mpr hz)]

/-- Every opcode is one of the eight defined ones or reserved (30_encoding.md R64). -/
theorem fieldOp_cases (w : Word) : fieldOp w = 0 ∨ fieldOp w = 1 ∨ fieldOp w = 2 ∨ fieldOp w = 3 ∨ fieldOp w = 4 ∨
    fieldOp w = 5 ∨ fieldOp w = 6 ∨ fieldOp w = 7 ∨ 0x8#4 ≤ fieldOp w := by
  generalize fieldOp w = op
  revert op
  decide

end Sys2Proof
end

