-- ==== Sys2Proof/Laws/Float32.lean ====
section
/-! SUPPORT. The parts of `round_f32` and of `f32_to_real` (00_scope.md R11), each said once over the rationals: the rounding to
an integer, the leading exponent, the significand, and the value a 32-bit encoding stands for. -/

namespace Sys2Proof.Machine

/-- Rounding a quotient to an integer is off by at most a half, and by a half only onto an even integer. -/
theorem roundHalfEven_spec (a d : Nat) (hd : 0 < d) :
    |(roundHalfEven a d : ℚ) - (a : ℚ) / d| ≤ 1 / 2 ∧
      (|(roundHalfEven a d : ℚ) - (a : ℚ) / d| = 1 / 2 → roundHalfEven a d % 2 = 0) := by
  have hdq : (0 : ℚ) < d := by exact_mod_cast hd
  have e : (a : ℚ) / d = (a / d : Nat) + (a % d : Nat) / (d : ℚ) := by
    have h : (a : ℚ) = d * (a / d : Nat) + (a % d : Nat) := by exact_mod_cast (Nat.div_add_mod a d).symm
    field_simp
    linarith
  have r0 : (0 : ℚ) ≤ (a % d : Nat) / (d : ℚ) := by positivity
  unfold roundHalfEven
  rw [e]
  generalize hr : a % d = r at *
  generalize a / d = q at *
  dsimp only
  split_ifs with h1 h2 h3
  · have : (r : ℚ) / d < 1 / 2 := by
      rw [div_lt_iff₀ hdq]; have : (2 * r : ℚ) < d := by exact_mod_cast h1
      linarith
    rw [show (q : ℚ) - (q + r / d) = -(r / d) by ring, abs_neg, abs_of_nonneg r0]
    exact ⟨this.le, fun h => absurd h this.ne⟩
  · have l : (1 : ℚ) / 2 < r / d := by
      rw [lt_div_iff₀ hdq]; have : (d : ℚ) < 2 * r := by exact_mod_cast h2
      linarith
    have u : (r : ℚ) / d < 1 := by
      rw [div_lt_one hdq]; exact_mod_cast hr ▸ Nat.mod_lt a hd
    rw [show ((q + 1 : Nat) : ℚ) - (q + r / d) = 1 - r / d by push_cast; ring, abs_of_nonneg (by linarith)]
    exact ⟨by linarith, fun h => by linarith⟩
  all_goals
    have t : (r : ℚ) / d = 1 / 2 := by
      rw [div_eq_iff hdq.ne']; have : (2 * r : ℚ) = d := by exact_mod_cast le_antisymm (not_lt.mp h2) (not_lt.mp h1)
      linarith
  · rw [show (q : ℚ) - (q + r / d) = -(r / d) by ring, abs_neg, abs_of_nonneg r0, t]
    exact ⟨le_rfl, fun _ => h3⟩
  · rw [show ((q + 1 : Nat) : ℚ) - (q + r / d) = 1 - r / d by push_cast; ring, t]
    exact ⟨by norm_num [abs_of_nonneg], fun _ => by omega⟩

/-- A power of two as a quotient of two natural powers. -/
theorem two_zpow_eq (k : Int) : (2 : ℚ) ^ k = 2 ^ k.toNat / 2 ^ (-k).toNat := by
  obtain ⟨n, rfl | rfl⟩ := k.eq_nat_or_neg
  · simp
  · simp

/-- `floorLog2` is the leading exponent of the quotient. -/
theorem floorLog2_spec (a d : Nat) (ha : 0 < a) (hd : 0 < d) :
    (2 : ℚ) ^ floorLog2 a d ≤ (a : ℚ) / d ∧ (a : ℚ) / d < (2 : ℚ) ^ (floorLog2 a d + 1) := by
  have hdq : (0 : ℚ) < d := by exact_mod_cast hd
  have a1 : (2 : ℚ) ^ a.log2 ≤ a := by exact_mod_cast Nat.log2_self_le ha.ne'
  have a2 : (a : ℚ) < 2 ^ (a.log2 + 1) := by exact_mod_cast Nat.lt_log2_self
  have d1 : (2 : ℚ) ^ d.log2 ≤ d := by exact_mod_cast Nat.log2_self_le hd.ne'
  have d2 : (d : ℚ) < 2 ^ (d.log2 + 1) := by exact_mod_cast Nat.lt_log2_self
  have c (k : Int) : (2 : ℚ) ^ k ≤ (a : ℚ) / d ↔ d * 2 ^ k.toNat ≤ a * 2 ^ (-k).toNat := by
    rw [two_zpow_eq, div_le_div_iff₀ (by positivity) hdq, mul_comm (d : Nat)]
    exact_mod_cast Iff.rfl
  have lo : (2 : ℚ) ^ ((a.log2 : Int) - d.log2 - 1) ≤ a / d := by
    rw [le_div_iff₀ hdq, zpow_sub_one₀ two_ne_zero, zpow_sub₀ two_ne_zero, zpow_natCast, zpow_natCast]
    have p : (0 : ℚ) < 2 ^ d.log2 := by positivity
    have : (d : ℚ) / 2 ^ d.log2 ≤ 2 := by rw [div_le_iff₀ p]; rw [pow_succ] at d2; linarith
    calc (2 : ℚ) ^ a.log2 / 2 ^ d.log2 * 2⁻¹ * d = 2 ^ a.log2 * (d / 2 ^ d.log2) / 2 := by ring
      _ ≤ 2 ^ a.log2 * 2 / 2 := by gcongr
      _ ≤ a := by linarith
  have hi : (a : ℚ) / d < 2 ^ ((a.log2 : Int) - d.log2 + 1) := by
    rw [div_lt_iff₀ hdq, zpow_add_one₀ two_ne_zero, zpow_sub₀ two_ne_zero, zpow_natCast, zpow_natCast]
    have p : (0 : ℚ) < 2 ^ d.log2 := by positivity
    have : 1 ≤ (d : ℚ) / 2 ^ d.log2 := by rw [le_div_iff₀ p]; linarith
    calc (a : ℚ) < 2 ^ (a.log2 + 1) := a2
      _ = 2 ^ a.log2 * 2 * 1 := by ring
      _ ≤ 2 ^ a.log2 * 2 * (d / 2 ^ d.log2) := by gcongr
      _ = 2 ^ a.log2 / 2 ^ d.log2 * 2 * d := by ring
  unfold floorLog2
  dsimp only
  split_ifs with h
  · exact ⟨(c _).mpr h, hi⟩
  · refine ⟨lo, ?_⟩
    rw [sub_add_cancel]
    exact lt_of_not_ge (mt (c _).mp h)

/-- The significand is the quotient counted in steps of 2^quantumExp, rounded. -/
theorem significand_spec (a d : Nat) (hd : 0 < d) :
    |(significand a d : ℚ) - (a : ℚ) / d / 2 ^ quantumExp a d| ≤ 1 / 2 ∧
      (|(significand a d : ℚ) - (a : ℚ) / d / 2 ^ quantumExp a d| = 1 / 2 → significand a d % 2 = 0) := by
  have h := roundHalfEven_spec (a * 2 ^ (-quantumExp a d).toNat) (d * 2 ^ (quantumExp a d).toNat) (by positivity)
  have e : ((a * 2 ^ (-quantumExp a d).toNat : Nat) : ℚ) / (d * 2 ^ (quantumExp a d).toNat : Nat) =
      (a : ℚ) / d / 2 ^ quantumExp a d := by
    rw [two_zpow_eq]; push_cast
    have hdq : (d : ℚ) ≠ 0 := by exact_mod_cast hd.ne'
    field_simp
  rw [e] at h
  exact h

/-- The steps of 2^quantumExp in the quotient: under 2^24, and at least 2^23 where the number is not subnormal. -/
theorem quotient_range (a d : Nat) (ha : 0 < a) (hd : 0 < d) :
    (a : ℚ) / d / 2 ^ quantumExp a d < 2 ^ 24 ∧
      (-149 < quantumExp a d → (2 : ℚ) ^ 23 ≤ (a : ℚ) / d / 2 ^ quantumExp a d) := by
  obtain ⟨h1, h2⟩ := floorLog2_spec a d ha hd
  have p : (0 : ℚ) < 2 ^ quantumExp a d := by positivity
  constructor
  · rw [div_lt_iff₀ p]
    refine h2.trans_le ?_
    rw [show (2 : ℚ) ^ 24 = 2 ^ (24 : Int) by norm_num, ← zpow_add₀ two_ne_zero]
    exact zpow_le_zpow_right₀ (by norm_num) (by unfold quantumExp; omega)
  · intro h
    rw [le_div_iff₀ p, show (2 : ℚ) ^ 23 = 2 ^ (23 : Int) by norm_num, ← zpow_add₀ two_ne_zero]
    refine le_trans (zpow_le_zpow_right₀ (by norm_num) ?_) h1
    unfold quantumExp at h ⊢; omega

/-- The significand has at most 24 bits but for the carry, and all 24 where the number is not subnormal. -/
theorem significand_range (a d : Nat) (ha : 0 < a) (hd : 0 < d) :
    significand a d ≤ 2 ^ 24 ∧ (-149 < quantumExp a d → 2 ^ 23 ≤ significand a d) := by
  obtain ⟨h1, h2⟩ := quotient_range a d ha hd
  have h := abs_le.mp (significand_spec a d hd).1
  constructor
  · have : (significand a d : ℚ) < (2 ^ 24 + 1 : Nat) := by push_cast; linarith [h.2]
    exact Nat.lt_succ_iff.mp (by exact_mod_cast this)
  · intro hq
    have : ((2 ^ 23 : Nat) : ℚ) < (significand a d : ℚ) + 1 := by push_cast; linarith [h.1, h2 hq]
    exact Nat.lt_succ_iff.mp (by exact_mod_cast this)

/-- The value of bits [30:0] of an encoding. -/
def magnitudeValue (m : Nat) : ℚ :=
  if m / 2 ^ 23 = 0 then (2 : ℚ) ^ (-126 : Int) * ((m % 2 ^ 23 : Nat) / 2 ^ 23)
  else (2 : ℚ) ^ ((m / 2 ^ 23 : Nat) - 127 : Int) * (1 + (m % 2 ^ 23 : Nat) / 2 ^ 23)

/-- The three fields of an encoding (00_scope.md R11). -/
theorem f32_fields (neg : Bool) (m : Nat) (hm : m < 2 ^ 31) :
    let w : Word := BitVec.ofNat 32 ((if neg then 2 ^ 31 else 0) + m)
    f32Sign w = neg ∧ f32Exponent w = m / 2 ^ 23 ∧ f32Fraction w = m % 2 ^ 23 := by
  dsimp only
  have t : (BitVec.ofNat 32 ((if neg then 2 ^ 31 else 0) + m)).toNat = (if neg then 2 ^ 31 else 0) + m := by
    rw [BitVec.toNat_ofNat]; exact Nat.mod_eq_of_lt (by split <;> omega)
  refine ⟨?_, ?_, ?_⟩
  · rw [f32Sign, BitVec.getLsbD, t, Nat.testBit_eq_decide_div_mod_eq]
    cases neg <;> simp <;> omega
  · rw [f32Exponent, BitVec.extractLsb'_toNat, t, Nat.shiftRight_eq_div_pow]
    cases neg <;> simp <;> omega
  · rw [f32Fraction, BitVec.extractLsb'_toNat, t, Nat.shiftRight_eq_div_pow]
    cases neg <;> simp; omega

/-- The value of an encoding given as its sign and its bits [30:0]: none from the exponent 255 on. -/
theorem f32ToReal_ofNat (neg : Bool) (m : Nat) (hm : m < 2 ^ 31) :
    f32ToReal (BitVec.ofNat 32 ((if neg then 2 ^ 31 else 0) + m)) =
      if m / 2 ^ 23 = 255 then none else some ((if neg then -1 else 1) * magnitudeValue m) := by
  obtain ⟨h1, h2, h3⟩ := f32_fields neg m hm
  unfold f32ToReal magnitudeValue
  rw [h1, h2, h3]
  dsimp only
  split_ifs <;> simp

/-- Every encoding is its sign and its bits [30:0]. -/
theorem word_eq_ofNat (w : Word) :
    w = BitVec.ofNat 32 ((if f32Sign w then 2 ^ 31 else 0) + w.toNat % 2 ^ 31) := by
  have h := w.isLt
  apply BitVec.eq_of_toNat_eq
  rw [BitVec.toNat_ofNat, f32Sign, BitVec.getLsbD, Nat.testBit_eq_decide_div_mod_eq]
  by_cases hb : w.toNat / 2 ^ 31 % 2 = 1 <;> simp only [hb, decide_true, decide_false, if_true, Bool.false_eq_true, if_false] <;> omega

/-- A significand over a quantum exponent has the value it should, the carry to 2^24 included. -/
theorem magnitudeValue_eq (q : Int) (s : Nat) (hq : -149 ≤ q) (h1 : s ≤ 2 ^ 24) (h2 : -149 < q → 2 ^ 23 ≤ s) :
    magnitudeValue ((q + 149).toNat * 2 ^ 23 + s) = s * 2 ^ q := by
  obtain ⟨k, rfl⟩ : ∃ k : Nat, q = (k : Int) - 149 := ⟨(q + 149).toNat, by omega⟩
  rw [show ((k : Int) - 149 + 149).toNat = k by omega]
  have hk : k ≠ 0 → 2 ^ 23 ≤ s := fun h => h2 (by omega)
  unfold magnitudeValue
  obtain hs | hs | hs : s < 2 ^ 23 ∨ (2 ^ 23 ≤ s ∧ s < 2 ^ 24) ∨ s = 2 ^ 24 := by omega
  · have : k = 0 := by by_contra h; exact absurd (hk h) (by omega)
    subst this
    rw [if_pos (by omega), show (0 * 2 ^ 23 + s) % 2 ^ 23 = s by omega]
    rw [show ((0 : Nat) : Int) - 149 = -126 - 23 by norm_num, zpow_sub₀ two_ne_zero]
    norm_num
    ring
  · rw [if_neg (by omega), show (k * 2 ^ 23 + s) / 2 ^ 23 = k + 1 by omega, show (k * 2 ^ 23 + s) % 2 ^ 23 = s - 2 ^ 23 by omega,
      Nat.cast_sub hs.1, show ((k + 1 : Nat) : Int) - 127 = ((k : Int) - 149) + 23 by push_cast; ring, zpow_add₀ two_ne_zero]
    norm_num
    ring
  · subst hs
    rw [if_neg (by omega), show (k * 2 ^ 23 + 2 ^ 24) / 2 ^ 23 = k + 2 by omega,
      show (k * 2 ^ 23 + 2 ^ 24) % 2 ^ 23 = 0 by omega,
      show ((k + 2 : Nat) : Int) - 127 = ((k : Int) - 149) + 24 by push_cast; ring, zpow_add₀ two_ne_zero]
    norm_num
    ring

/-- Every finite magnitude is a whole number of steps, under 2^24 of them, of a power of two not below 2^-149. -/
theorem magnitudeValue_form (m : Nat) : ∃ (t : Nat) (e : Int), t < 2 ^ 24 ∧ -149 ≤ e ∧ magnitudeValue m = t * 2 ^ e := by
  by_cases h : m / 2 ^ 23 = 0
  · exact ⟨m, -149, by omega, le_rfl, by
      have := magnitudeValue_eq (-149) m le_rfl (by omega) (by omega)
      simpa using this⟩
  · refine ⟨2 ^ 23 + m % 2 ^ 23, (m / 2 ^ 23 : Nat) - 150, by omega, by omega, ?_⟩
    have := magnitudeValue_eq ((m / 2 ^ 23 : Nat) - 150) (2 ^ 23 + m % 2 ^ 23) (by omega) (by omega) (by omega)
    rw [← this]; congr 1; omega

end Sys2Proof.Machine
end

