-- ==== Sys2Proof/Laws/State.lean ====
section
/-! SUPPORT. What each operation on the state does to each field: one lemma per field per operation, true by definition. -/

namespace Sys2Proof.Machine

/-! `setCrc` writes CRC alone. -/

@[simp] theorem setCrc_crc (v : Byte) (s : State) : (setCrc v s).crc = v := rfl
@[simp] theorem setCrc_res (v : Byte) (s : State) : (setCrc v s).res = s.res := rfl
@[simp] theorem setCrc_matchFlag (v : Byte) (s : State) : (setCrc v s).matchFlag = s.matchFlag := rfl
@[simp] theorem setCrc_err (v : Byte) (s : State) : (setCrc v s).err = s.err := rfl
@[simp] theorem setCrc_ecause (v : Byte) (s : State) : (setCrc v s).ecause = s.ecause := rfl
@[simp] theorem setCrc_pending (v : Byte) (s : State) : (setCrc v s).pending = s.pending := rfl
@[simp] theorem setCrc_reply (v : Byte) (s : State) : (setCrc v s).reply = s.reply := rfl

/-! `setRes` writes RES alone. -/

@[simp] theorem setRes_crc (v : Word) (s : State) : (setRes v s).crc = s.crc := rfl
@[simp] theorem setRes_res (v : Word) (s : State) : (setRes v s).res = v := rfl
@[simp] theorem setRes_matchFlag (v : Word) (s : State) : (setRes v s).matchFlag = s.matchFlag := rfl
@[simp] theorem setRes_err (v : Word) (s : State) : (setRes v s).err = s.err := rfl
@[simp] theorem setRes_ecause (v : Word) (s : State) : (setRes v s).ecause = s.ecause := rfl
@[simp] theorem setRes_pending (v : Word) (s : State) : (setRes v s).pending = s.pending := rfl
@[simp] theorem setRes_reply (v : Word) (s : State) : (setRes v s).reply = s.reply := rfl

/-! `setMatch` writes MATCH alone. -/

@[simp] theorem setMatch_crc (b : Bool) (s : State) : (setMatch b s).crc = s.crc := rfl
@[simp] theorem setMatch_res (b : Bool) (s : State) : (setMatch b s).res = s.res := rfl
@[simp] theorem setMatch_matchFlag (b : Bool) (s : State) : (setMatch b s).matchFlag = b := rfl
@[simp] theorem setMatch_err (b : Bool) (s : State) : (setMatch b s).err = s.err := rfl
@[simp] theorem setMatch_ecause (b : Bool) (s : State) : (setMatch b s).ecause = s.ecause := rfl
@[simp] theorem setMatch_pending (b : Bool) (s : State) : (setMatch b s).pending = s.pending := rfl
@[simp] theorem setMatch_reply (b : Bool) (s : State) : (setMatch b s).reply = s.reply := rfl

/-! A command error writes ERR and ECAUSE alone (60_exceptions.md R131). -/

@[simp] theorem cmdError_crc (k : CmdCause) (s : State) : (cmdError k s).crc = s.crc := rfl
@[simp] theorem cmdError_res (k : CmdCause) (s : State) : (cmdError k s).res = s.res := rfl
@[simp] theorem cmdError_matchFlag (k : CmdCause) (s : State) : (cmdError k s).matchFlag = s.matchFlag := rfl
@[simp] theorem cmdError_err (k : CmdCause) (s : State) : (cmdError k s).err = true := rfl
@[simp] theorem cmdError_ecause (k : CmdCause) (s : State) : (cmdError k s).ecause = if s.err then s.ecause else k.code := rfl
@[simp] theorem cmdError_pending (k : CmdCause) (s : State) : (cmdError k s).pending = s.pending := rfl
@[simp] theorem cmdError_reply (k : CmdCause) (s : State) : (cmdError k s).reply = s.reply := rfl

/-! The acknowledgement writes the three flags alone (42_control.md R121). -/

@[simp] theorem clearFlags_crc (s : State) : (clearFlags s).crc = s.crc := rfl
@[simp] theorem clearFlags_res (s : State) : (clearFlags s).res = s.res := rfl
@[simp] theorem clearFlags_matchFlag (s : State) : (clearFlags s).matchFlag = false := rfl
@[simp] theorem clearFlags_err (s : State) : (clearFlags s).err = false := rfl
@[simp] theorem clearFlags_ecause (s : State) : (clearFlags s).ecause = 0x0 := rfl
@[simp] theorem clearFlags_pending (s : State) : (clearFlags s).pending = s.pending := rfl
@[simp] theorem clearFlags_reply (s : State) : (clearFlags s).reply = s.reply := rfl

/-! A block reset writes every item (70_reset_and_hazards.md R150) and leaves what the host does next. -/

@[simp] theorem blockReset_crc (s : State) : (blockReset s).crc = 0x00 := rfl
@[simp] theorem blockReset_res (s : State) : (blockReset s).res = 0x00000000 := rfl
@[simp] theorem blockReset_matchFlag (s : State) : (blockReset s).matchFlag = false := rfl
@[simp] theorem blockReset_err (s : State) : (blockReset s).err = false := rfl
@[simp] theorem blockReset_ecause (s : State) : (blockReset s).ecause = 0x0 := rfl
@[simp] theorem blockReset_pending (s : State) : (blockReset s).pending = s.pending := rfl
@[simp] theorem blockReset_reply (s : State) : (blockReset s).reply = none := rfl

/-! The answer to the host is no state of the block. -/

@[simp] theorem answer_crc (r : Reply) (s : State) : (answer r s).crc = s.crc := rfl
@[simp] theorem answer_res (r : Reply) (s : State) : (answer r s).res = s.res := rfl
@[simp] theorem answer_matchFlag (r : Reply) (s : State) : (answer r s).matchFlag = s.matchFlag := rfl
@[simp] theorem answer_err (r : Reply) (s : State) : (answer r s).err = s.err := rfl
@[simp] theorem answer_ecause (r : Reply) (s : State) : (answer r s).ecause = s.ecause := rfl
@[simp] theorem answer_pending (r : Reply) (s : State) : (answer r s).pending = s.pending := rfl
@[simp] theorem answer_reply (r : Reply) (s : State) : (answer r s).reply = some r := rfl

/-! Placing an event changes only what the host does next. -/

@[simp] theorem withEvent_crc (s : State) (e : HostEvent) : (s.withEvent e).crc = s.crc := rfl
@[simp] theorem withEvent_res (s : State) (e : HostEvent) : (s.withEvent e).res = s.res := rfl
@[simp] theorem withEvent_matchFlag (s : State) (e : HostEvent) : (s.withEvent e).matchFlag = s.matchFlag := rfl
@[simp] theorem withEvent_err (s : State) (e : HostEvent) : (s.withEvent e).err = s.err := rfl
@[simp] theorem withEvent_ecause (s : State) (e : HostEvent) : (s.withEvent e).ecause = s.ecause := rfl
@[simp] theorem withEvent_pending (s : State) (e : HostEvent) : (s.withEvent e).pending = e :: s.pending := rfl
@[simp] theorem withEvent_reply (s : State) (e : HostEvent) : (s.withEvent e).reply = s.reply := rfl

/-! Placing a command changes only what the host does next. -/

@[simp] theorem withCommand_crc (s : State) (w : Word) : (s.withCommand w).crc = s.crc := rfl
@[simp] theorem withCommand_res (s : State) (w : Word) : (s.withCommand w).res = s.res := rfl
@[simp] theorem withCommand_matchFlag (s : State) (w : Word) : (s.withCommand w).matchFlag = s.matchFlag := rfl
@[simp] theorem withCommand_err (s : State) (w : Word) : (s.withCommand w).err = s.err := rfl
@[simp] theorem withCommand_ecause (s : State) (w : Word) : (s.withCommand w).ecause = s.ecause := rfl
@[simp] theorem withCommand_pending (s : State) (w : Word) : (s.withCommand w).pending = HostEvent.writeCmd w :: s.pending := rfl
@[simp] theorem withCommand_reply (s : State) (w : Word) : (s.withCommand w).reply = s.reply := rfl

end Sys2Proof.Machine
end

