-- ==== Sys2Proof/Laws/Ops.lean ====
section
/-! SUPPORT. What the shared operations over the window and the commands can do, each said once. -/

namespace Sys2Proof.Machine

/-- Every command completes, and touches neither what the host does next nor its last answer: the block has no arithmetic,
floating-point or checksum exception (60_exceptions.md R130). -/
theorem exec_completes (i : Instr) (s : State) : ∃ t, exec i s = .next t ∧ t.pending = s.pending ∧ t.reply = s.reply := by
  cases i <;> exact ⟨_, rfl, rfl, rfl⟩

/-- `exec` does to a state what it does to the same registers with another host side. -/
theorem exec_hostSide (i : Instr) (s t : State) (p : List HostEvent) (r : Option Reply) (h : exec i s = .next t) :
    exec i { s with pending := p, reply := r } = .next { t with pending := p, reply := r } := by
  cases i <;> cases h <;> rfl

/-- Only clr.status touches ERR or ECAUSE (10_state.md R26, R27). -/
theorem exec_keeps_error (i : Instr) (s t : State) (h : exec i s = .next t) (hi : i ≠ .clrStatus) :
    t.err = s.err ∧ t.ecause = s.ecause := by
  cases i <;> first | exact absurd rfl hi | (cases h; exact ⟨rfl, rfl⟩)

/-- A word that selects a command runs it (20_memory.md R42). -/
theorem runCommandWord_command {w : Word} {i : Instr} (h : decode w = .command i) (s : State) :
    runCommandWord w s = answerDone (exec i s) := by
  rw [runCommandWord, h]

/-- A word that selects none is a command error (60_exceptions.md R131). -/
theorem runCommandWord_error {w : Word} {cause : CmdCause} (h : decode w = .cmdError cause) (s : State) :
    runCommandWord w s = .next (answer .done (cmdError cause s)) := by
  rw [runCommandWord, h]

/-- The write of any word to CMD completes (70_reset_and_hazards.md R155): with the command's state, or with the error's. -/
theorem runCommandWord_cases (w : Word) (s : State) :
    (∃ i t, decode w = .command i ∧ exec i s = .next t ∧ runCommandWord w s = .next (answer .done t)) ∨
    (∃ cause, decode w = .cmdError cause ∧ runCommandWord w s = .next (answer .done (cmdError cause s))) := by
  cases h : decode w with
  | command i =>
    obtain ⟨t, ht, -⟩ := exec_completes i s
    exact .inl ⟨i, t, rfl, ht, by rw [runCommandWord_command h, ht, answerDone]⟩
  | cmdError cause => exact .inr ⟨cause, rfl, runCommandWord_error h s⟩

theorem inWindow_iff (off : Int) : inWindow off = true ↔ 0 ≤ off ∧ off < 32 := by
  exact decide_eq_true_iff

theorem accessAllowed_iff (off : Int) (n : Width) : accessAllowed off n = true ↔ n = .w4 ∧ off % 4 = 0 := by
  simp [accessAllowed]

/-- A read in the window is answered, with the view's value or a bus error, and does nothing else (20_memory.md R43, R48). -/
theorem performRead_eq (off : Int) (n : Width) (s : State) : performRead off n s =
    if 0 ≤ off ∧ off < 32 then
      .next (answer (if n = .w4 ∧ off % 4 = 0 then .data (viewWord (viewAt off) s) else .busError) s)
    else .refused .outsideWindow := by
  unfold performRead busError
  simp only [inWindow_iff, accessAllowed_iff]
  split <;> [split; skip] <;> rfl

/-- A write in the window is a word written to CMD, which runs, or is answered and does nothing else (20_memory.md R42 to
R45). -/
theorem performWrite_eq (off : Int) (d : WriteData) (s : State) : performWrite off d s =
    if 0 ≤ off ∧ off < 32 then
      if off = 0 then
        match d with
        | .b4 w => runCommandWord w s
        | _ => .next (answer .busError s)
      else .next (answer (if d.width = .w4 ∧ off % 4 = 0 then .done else .busError) s)
    else .refused .outsideWindow := by
  unfold performWrite busError
  simp only [inWindow_iff, accessAllowed_iff]
  split
  · by_cases h0 : off = 0
    · subst h0; cases d <;> simp [WriteData.width, viewAt, writeView]
    · cases d <;> simp only [WriteData.width, reduceCtorEq, false_and, if_false, true_and, h0]
      split
      · have : viewAt off ≠ .cmd := by
          unfold viewAt; rw [if_neg h0]; split_ifs <;> exact View.noConfusion
        cases hv : viewAt off <;> first | rfl | exact absurd hv this
      · rfl
  · rfl

end Sys2Proof.Machine
end

