-- ==== Sys2Proof/Laws/PerInstr.lean ====
section
/-! SUPPORT. A property of every command as syntax, one lemma per constructor: its word has a defined opcode and no reserved
bit set (30_encoding.md R65). -/

namespace Sys2Proof.Laws.EncodedWord

/-- The word of the command is one that selects a command (30_encoding.md R65). -/
def Statement (i : Instr) : Prop := wellFormedWord (encode i) = true

/-- A word with opcode `op` and no bit of its mask is well formed. -/
theorem wellFormed_of (w : Word) (h1 : fieldOp w < 0x8#4) (h2 : w &&& rsvMask (fieldOp w) = 0) : wellFormedWord w = true := by
  simp only [wellFormedWord, h1, h2, decide_true, Bool.and_self]

theorem nop : Statement .nop := by unfold Statement; decide

theorem crcInit : Statement .crcInit := by unfold Statement; decide

theorem crcFeed (a : Byte) : Statement (.crcFeed a) := by
  refine wellFormed_of _ (by rw [encode, fieldOp_packW]; decide) ?_
  rw [encode, fieldOp_packW]
  exact (and_0x0F00FFFF_eq_zero_iff _).mpr (by simp)

theorem crcCheck (c : Byte) : Statement (.crcCheck c) := by
  refine wellFormed_of _ (by rw [encode, fieldOp_packW]; decide) ?_
  rw [encode, fieldOp_packW]
  exact (and_0x0FFFFF00_eq_zero_iff _).mpr (by simp)

theorem crcVal2 (a b c : Byte) : Statement (.crcVal2 a b c) := by
  refine wellFormed_of _ (by rw [encode, fieldOp_packW]; decide) ?_
  rw [encode, fieldOp_packW]
  exact (and_0x0F000000_eq_zero_iff _).mpr (by simp)

/-- The scaler commands share their opcode's mask. -/
theorem scaler (op : BitVec 4) (f : BitVec 1) (a b : Byte) (h : op < 0x8#4) (hm : rsvMask op = 0x0E0000FF) :
    wellFormedWord (packW op 0 f a b 0) = true := by
  refine wellFormed_of _ (by rw [fieldOp_packW]; exact h) ?_
  rw [fieldOp_packW, hm]
  exact (and_0x0E0000FF_eq_zero_iff _).mpr (by simp)

theorem scaleTF32 (raw : Raw) : Statement (.scaleTF32 raw) := scaler _ _ _ _ (by decide) rfl

theorem scaleTFix (raw : Raw) : Statement (.scaleTFix raw) := scaler _ _ _ _ (by decide) rfl

theorem scaleRhF32 (raw : Raw) : Statement (.scaleRhF32 raw) := scaler _ _ _ _ (by decide) rfl

theorem scaleRhFix (raw : Raw) : Statement (.scaleRhFix raw) := scaler _ _ _ _ (by decide) rfl

theorem clrStatus : Statement .clrStatus := by unfold Statement; decide

end Sys2Proof.Laws.EncodedWord
end

