-- ==== Sys2Proof/Laws/Scale.lean ====
section
/-! SUPPORT. The operands of the scaler as numbers, and the fixed-point encoding as a floor (41_scale.md R100, R103). -/

namespace Sys2Proof.Machine

/-- The mask clears the low 2 bits: m is the multiple of 4 below (41_scale.md R100). -/
theorem maskRaw_toNat (raw : Raw) : (maskRaw raw).toNat = 4 * (raw.toNat / 4) := by
  have h := raw.isLt
  rw [maskRaw, show raw &&& Config.rawMask = (raw >>> 2) <<< 2 by
    apply BitVec.eq_of_getLsbD_eq
    intro i hi
    have : ∀ i < 16, Config.rawMask.getLsbD i = decide (2 ≤ i) := by decide
    rw [BitVec.getLsbD_and, this i hi]
    by_cases h : 2 ≤ i
    · simp only [h, decide_true, Bool.and_true, BitVec.getLsbD_shiftLeft, BitVec.getLsbD_ushiftRight, hi]
      simp [show ¬ i < 2 by omega, show 2 + (i - 2) = i by omega]
    · simp [h]; intro; omega]
  simp [Nat.shiftLeft_eq, Nat.shiftRight_eq_div_pow]
  omega

/-- `m` is at most 65532 (41_scale.md R100). -/
theorem maskRaw_le (raw : Raw) : (maskRaw raw).toNat ≤ 65532 := by
  have := raw.isLt
  rw [maskRaw_toNat]; omega

/-- The fixed-point encoding as a signed number, where nothing overflows (41_scale.md R103). -/
theorem encFix_toInt (n : Int) (h1 : -2 ^ 31 ≤ n + 32768) (h2 : n + 32768 < 2 ^ 31) :
    (encFix n).toInt = (n + 32768) / 65536 := by
  rw [encFix, BitVec.toInt_ofInt, show (n + 32768) >>> (16 : Nat) = (n + 32768) / 65536 by
    rw [Int.shiftRight_eq_div_pow]; rfl]
  rw [Int.bmod_eq_of_le] <;> omega

end Sys2Proof.Machine
end

