-- ==== Sys2Proof/Laws/Step.lean ====
section
/-! SUPPORT. Everything one step can do, said once. -/

namespace Sys2Proof.Machine

theorem step_nil {s : State} (h : s.pending = []) : step s = .next s := by
  rw [step, performNext, h]

theorem step_cons {s : State} {e : HostEvent} {rest : List HostEvent} (h : s.pending = e :: rest) :
    step s = performEvent e { s with pending := rest } := by
  rw [step, performNext, h]

@[simp] theorem step_withEvent (s : State) (e : HostEvent) : step (s.withEvent e) = performEvent e s := rfl

@[simp] theorem step_withCommand (s : State) (w : Word) : step (s.withCommand w) = runCommandWord w s := rfl

/-- The next access is a CMD write, in a state given with what is to come. -/
theorem step_writeCmd (s : State) (w : Word) (rest : List HostEvent) :
    step { s with pending := HostEvent.writeCmd w :: rest } = runCommandWord w { s with pending := rest } := rfl

/-- A step on the write of a command is the command and the completion of the write. -/
theorem step_command {s t : State} {w : Word} {i : Instr} (hd : decode w = .command i) (ht : exec i s = .next t)
    (rest : List HostEvent) :
    step { s with pending := HostEvent.writeCmd w :: rest } = .next { t with pending := rest, reply := some .done } := by
  rw [step_writeCmd, runCommandWord_command hd, exec_hostSide i s t rest s.reply ht]
  rfl

/-- What one thing the host does can lead to, when it leads on. -/
theorem performEvent_cases (e : HostEvent) (s t : State) (h : performEvent e s = .next t) :
    (e = .reset ∧ t = blockReset s) ∨ (∃ w, e = .writeCmd w ∧ runCommandWord w s = .next t) ∨
    (e ≠ .reset ∧ (∀ w, e ≠ .writeCmd w) ∧ ∃ r, t = answer r s) := by
  cases e with
  | reset => cases h; exact .inl ⟨rfl, rfl⟩
  | read off n =>
    simp only [performEvent, performRead_eq] at h
    split at h <;> cases h
    exact .inr (.inr ⟨by simp, by simp [HostEvent.writeCmd], _, rfl⟩)
  | write off d =>
    simp only [performEvent, performWrite_eq] at h
    split at h
    · split at h
      · rename_i h0
        subst h0
        cases d with
        | b4 w => exact .inr (.inl ⟨w, rfl, h⟩)
        | _ => cases h; exact .inr (.inr ⟨by simp, by simp [HostEvent.writeCmd], _, rfl⟩)
      · rename_i h0
        cases h
        exact .inr (.inr ⟨by simp, by simp [HostEvent.writeCmd, h0], _, rfl⟩)
    · cases h

/-- The inversion of a step: nothing to do; a reset; a command; a command error; or an access that only gets an answer. -/
theorem step_cases {s t : State} (h : step s = .next t) :
    (s.pending = [] ∧ t = s) ∨
    (∃ rest, s.pending = .reset :: rest ∧ t = blockReset { s with pending := rest }) ∨
    (∃ w rest i u, s.pending = HostEvent.writeCmd w :: rest ∧ decode w = .command i ∧
      exec i { s with pending := rest } = .next u ∧ t = answer .done u) ∨
    (∃ w rest cause, s.pending = HostEvent.writeCmd w :: rest ∧ decode w = .cmdError cause ∧
      t = answer .done (cmdError cause { s with pending := rest })) ∨
    (∃ e rest r, s.pending = e :: rest ∧ e ≠ .reset ∧ (∀ w, e ≠ .writeCmd w) ∧ t = answer r { s with pending := rest }) := by
  cases hp : s.pending with
  | nil => rw [step_nil hp] at h; cases h; exact .inl ⟨rfl, rfl⟩
  | cons e rest =>
    rw [step_cons hp] at h
    obtain ⟨rfl, rfl⟩ | ⟨w, rfl, hw⟩ | ⟨h1, h2, r, rfl⟩ := performEvent_cases e _ t h
    · exact .inr (.inl ⟨rest, rfl, rfl⟩)
    · obtain ⟨i, u, hd, hu, hr⟩ | ⟨cause, hd, hr⟩ := runCommandWord_cases w { s with pending := rest }
      · rw [hr] at hw; cases hw
        exact .inr (.inr (.inl ⟨w, rest, i, u, rfl, hd, hu, rfl⟩))
      · rw [hr] at hw; cases hw
        exact .inr (.inr (.inr (.inl ⟨w, rest, cause, rfl, hd, rfl⟩)))
    · exact .inr (.inr (.inr (.inr ⟨e, rest, r, rfl, h1, h2, rfl⟩)))

/-- A step that answers a next state is the first step of a run. -/
theorem run_next {s t : State} (k : Nat) (h : step s = .next t) : Sys2Proof.core.run (k + 1) s = Sys2Proof.core.run k t := by
  have h' : Sys2Proof.core.step s = .next t := h
  refine (Host.Core.run.eq_2 Sys2Proof.core s k).trans ?_
  rw [h']

/-- A run that begins with the write of a command goes on from what the command leaves. -/
theorem run_command {s t : State} {w : Word} {i : Instr} (k : Nat) (hd : decode w = .command i) (ht : exec i s = .next t)
    (rest : List HostEvent) :
    Sys2Proof.core.run (k + 1) { s with pending := HostEvent.writeCmd w :: rest } =
      Sys2Proof.core.run k { t with pending := rest, reply := some .done } :=
  run_next k (step_command hd ht rest)

@[simp] theorem run_zero (s : State) : Sys2Proof.core.run 0 s = .next s := rfl

end Sys2Proof.Machine
end

