-- ==== Sys2Proof/Tests/Slice0.lean ====
section
/-! SUPPORT. Tests: expected values are the spec's own (95_test_vectors.md, named at each test, or the rule's example), and the
witnesses that the hypotheses of each statement can be met. -/

namespace Sys2Proof.Tests

open Sys2Proof Sys2Proof.Machine Sys2Proof.Claims

/-! ### Helpers -/

/-- A state with these five items, as 95_test_vectors.md writes them: (CRC, MATCH, ERR, ECAUSE, RES). -/
def st (crc : Byte) (m e : Bool) (cause : BitVec 4) (res : Word) : State :=
  { State.reset with crc := crc, matchFlag := m, err := e, ecause := cause, res := res }

/-- The next state, if there is one. -/
def nextOf (o : Host.Outcome State Fault Refusal) : Option State :=
  match o with
  | .next t => some t
  | .fault _ => none
  | .refused _ => none

/-- The refusal, if there is one. -/
def refusalOf (o : Host.Outcome State Fault Refusal) : Option Refusal :=
  match o with
  | .next _ => none
  | .fault _ => none
  | .refused r => some r

/-- One step on the write of a word to CMD. -/
def after (s : State) (w : Word) : Option State := nextOf (step (s.withCommand w))

/-- A write to CMD completed and left these five items. -/
def leaves (o : Option State) (crc : Byte) (m e : Bool) (cause : BitVec 4) (res : Word) : Bool :=
  o = some { st crc m e cause res with reply := some .done }

/-! ### Well-formedness refuses what is out of range (30_encoding.md R70, R65) -/

theorem test_wf_refuses_a_byte_above_0xFF : (AsmLine.crcFeed 0x100).wf = false ∧ (AsmLine.crcFeed 0xFF).wf = true := by decide

theorem test_wf_refuses_a_raw_above_0xFFFF : (AsmLine.scaleTF32 0x10000).wf = false ∧ (AsmLine.scaleTF32 0xFFFF).wf = true := by
  decide

theorem test_wf_refuses_a_word_above_32_bits : (AsmLine.rawWord 0x100000000).wf = false ∧ (AsmLine.rawWord 0xFFFFFFFF).wf = true := by
  decide

theorem test_wf_refuses_a_bad_byte_in_a_list : (AsmLine.crcValn [0x01, 0x100] 0x00).wf = false := by decide

theorem test_wf_refuses_a_reserved_opcode : wellFormedWord 0x80000000 = false ∧ wellFormedWord 0x70000000 = true := by decide

theorem test_wf_refuses_a_reserved_field : wellFormedWord 0x00000001 = false ∧ wellFormedWord 0x52660500 = false := by decide

/-! ### Decoding: words written bit by bit from 30_encoding.md R60 and R64 -/

theorem test_decode_control :
    decode 0b0000_000_0_00000000_00000000_00000000 = .command .nop ∧
    decode 0b0111_000_0_00000000_00000000_00000000 = .command .clrStatus := by decide

theorem test_decode_crc :
    decode 0b0001_000_0_00000000_00000000_00000000 = .command .crcInit ∧
    decode 0b0010_000_0_10000001_00000000_00000000 = .command (.crcFeed 0x81) ∧
    decode 0b0011_000_0_00000000_00000000_10000001 = .command (.crcCheck 0x81) ∧
    decode 0b0100_000_0_00000001_00000010_10000000 = .command (.crcVal2 0x01 0x02 0x80) := by decide

theorem test_decode_scale :
    decode 0b0101_000_0_10000000_00000001_00000000 = .command (.scaleTF32 0x8001) ∧
    decode 0b0101_000_1_10000000_00000001_00000000 = .command (.scaleTFix 0x8001) ∧
    decode 0b0110_000_0_10000000_00000001_00000000 = .command (.scaleRhF32 0x8001) ∧
    decode 0b0110_000_1_10000000_00000001_00000000 = .command (.scaleRhFix 0x8001) := by decide

/-- V-ERR-3, V-ERR-5, V-ERR-10: the opcode check comes first. -/
theorem test_decode_errors :
    decode 0x8FFFFFFF = .cmdError .reservedOp ∧ decode 0x11000000 = .cmdError .reservedField ∧
    decode 0x52660500 = .cmdError .reservedField := by decide

theorem test_decodeTableWord :
    decodeTableWord 32 0x20660000 = some (.crcFeed 0x66) ∧ decodeTableWord 32 0x80000000 = none ∧
    decodeTableWord 40 0 = none := by decide

theorem test_withFetchWord_runs_it : leaves (nextOf (step (State.reset.withFetchWord 32 0x20660000))) 0x1D false false 0x0 0 := by
  decide

/-! ### The commands -/

/-- V-CTL-1. -/
theorem test_nop : leaves (after (st 0x1D true false 0x0 0x41B964AF) 0x00000000) 0x1D true false 0x0 0x41B964AF := by decide

/-- V-CMD-1. -/
theorem test_crcInit : leaves (after (st 0xFA true false 0x0 0x12345678) 0x10000000) 0x00 true false 0x0 0x12345678 := by decide

/-- V-CMD-3. -/
theorem test_crcFeed : leaves (after (st 0x1D false false 0x0 0) 0x20050000) 0xFA false false 0x0 0 := by decide +kernel

/-- V-CRC-8 and V-CRC-16: a nonzero start, and the byte order. -/
theorem test_crc8 : crc8Feed 0x2D 0x55 = 0x41 ∧ crc8 [0x01, 0x00] = 0xF4 ∧ crc8 [0x00, 0x01] = 0x31 ∧ crc8 [] = 0x00 := by
  decide +kernel

/-- V-CMD-4. -/
theorem test_crcCheck_match : leaves (after (st 0xFA false false 0x0 0) 0x300000FA) 0xFA true false 0x0 0 := by decide

/-- V-CMD-5. -/
theorem test_crcCheck_mismatch : leaves (after (st 0xFA true false 0x0 0) 0x300000FB) 0xFA false false 0x0 0 := by decide

/-- V-CMD-8: the old CRC is discarded. -/
theorem test_crcVal2_match : leaves (after (st 0x55 false false 0x0 0) 0x406605FA) 0xFA true false 0x0 0 := by decide +kernel

/-- V-CMD-11. -/
theorem test_crcVal2_mismatch : leaves (after State.reset 0x40FFFFFF) 0x2D false false 0x0 0 := by decide +kernel

/-- V-SCL, RAW = 0x6605. -/
theorem test_scaleTF32 : leaves (after (st 0xFA true false 0x0 0) 0x50660500) 0xFA true false 0x0 0x41B964AF := by decide +kernel

/-- V-SCL, RAW = 0x4440: a small negative result. -/
theorem test_scaleTF32_negative : leaves (after State.reset 0x50444000) 0x00 false false 0x0 0xBB35C28F := by decide +kernel

/-- V-SCL, RAW = 0x2000: the negative tie rounds up. -/
theorem test_scaleTFix_tie : leaves (after State.reset 0x51200000) 0x00 false false 0x0 0xFFFFF648 := by decide +kernel

/-- V-SCL, RAW = 0x6607: the low bits are masked. -/
theorem test_scaleTFix_masked : leaves (after State.reset 0x51660700) 0x00 false false 0x0 0x0000090D := by decide +kernel

/-- V-SCL, RAW = 0x7C80. -/
theorem test_scaleRhF32 : leaves (after State.reset 0x607C8000) 0x00 false false 0x0 0x425B2A00 := by decide +kernel

/-- V-SCL, RAW = 0x0C48. -/
theorem test_scaleRhF32_negative : leaves (after State.reset 0x600C4800) 0x00 false false 0x0 0xBB580000 := by decide +kernel

/-- V-SCL, RAW = 0x2000: the positive tie rounds up. -/
theorem test_scaleRhFix_tie : leaves (after State.reset 0x61200000) 0x00 false false 0x0 0x000003C3 := by decide +kernel

/-- V-SCL, RAW = 0xFFFF. -/
theorem test_scaleRhFix_top : leaves (after State.reset 0x61FFFF00) 0x00 false false 0x0 0x00002E7B := by decide +kernel

/-- V-CTL-2. -/
theorem test_clrStatus : leaves (after (st 0x1D true true 0x1 0x41B964AF) 0x70000000) 0x1D false false 0x0 0x41B964AF := by decide

/-! ### Command errors -/

/-- V-ERR-6: no feed. -/
theorem test_error_has_no_other_effect : leaves (after (st 0x1D false false 0x0 0) 0x20660001) 0x1D false true 0x2 0 := by decide

/-- V-ERR-12: the first cause is kept, and a malformed clr.status clears nothing. -/
theorem test_error_keeps_the_first_cause : leaves (after (st 0x00 true true 0x1 0) 0x71000000) 0x00 true true 0x1 0 := by decide

/-- V-ERR-13: a valid command after an error runs. -/
theorem test_error_blocks_nothing : leaves (after (st 0x00 false true 0x2 0) 0x406605FA) 0xFA true true 0x2 0 := by decide +kernel

/-! ### The register window -/

/-- V-ERR-1's STATUS read, and V-ACC-1 to V-ACC-3. -/
theorem test_reads :
    nextOf (step ((st 0x00 false true 0x1 0).withEvent (.read 0x04 .w4))) =
      some { st 0x00 false true 0x1 0 with reply := some (.data 0x00000012) } ∧
    nextOf (step (State.reset.withEvent (.read 0x00 .w4))) = some { State.reset with reply := some (.data 0x00000000) } ∧
    nextOf (step ((st 0xFA false false 0x0 0).withEvent (.read 0x08 .w4))) =
      some { st 0xFA false false 0x0 0 with reply := some (.data 0x000000FA) } ∧
    nextOf (step (State.reset.withEvent (.read 0x10 .w4))) = some { State.reset with reply := some (.data 0x00000000) } := by
  decide

/-- V-ACC-4 to V-ACC-6: ignored writes. -/
theorem test_ignored_writes :
    nextOf (step (State.reset.withEvent (.write 0x04 (.b4 0xFFFFFFFF)))) = some { State.reset with reply := some .done } ∧
    nextOf (step (State.reset.withEvent (.write 0x0C (.b4 0x12345678)))) = some { State.reset with reply := some .done } ∧
    nextOf (step (State.reset.withEvent (.write 0x1C (.b4 0x80000000)))) = some { State.reset with reply := some .done } := by
  decide

/-- V-ACC-7 to V-ACC-9: bus errors, after which the block goes on. -/
theorem test_bus_errors :
    nextOf (step (State.reset.withEvent (.write 0x00 (.b1 0x10)))) = some { State.reset with reply := some .busError } ∧
    nextOf (step (State.reset.withEvent (.read 0x06 .w2))) = some { State.reset with reply := some .busError } ∧
    nextOf (step (State.reset.withEvent (.read 0x0A .w4))) = some { State.reset with reply := some .busError } := by decide

/-- An access outside the window, on either side of it (20_memory.md R44). -/
theorem test_outside_the_window :
    refusalOf (step (State.reset.withEvent (.read 0x20 .w4))) = some .outsideWindow ∧
    refusalOf (step (State.reset.withEvent (.write (-4) (.b4 0)))) = some .outsideWindow := by decide

/-- A block reset (70_reset_and_hazards.md R150). -/
theorem test_reset : nextOf (step ((st 0xFA true true 0x2 0x12345678).withEvent .reset)) = some State.reset := by decide

/-- A launch (10_state.md R34). -/
theorem test_launch :
    refusalOf (launch [.read 0x04 .w4]) = some .beforeReset ∧ nextOf (launch [.reset]) = some State.reset := by decide

/-! ### The assembler (30_encoding.md R70, R71) -/

/-- E6 and E8 as text; an operand out of range assembles to nothing. -/
theorem test_assembler :
    (parseLine "crc.val2 0x66, 5, 0xFA").bind assemble = some [0x406605FA] ∧
    (parseLine "crc.val1 0x10, 0x43").bind assemble = some [0x10000000, 0x20100000, 0x30000043] ∧
    (parseLine "crc.feed 0x100").bind assemble = none := by decide

/-- Lines the assembler does not have. -/
theorem test_assembler_rejects : parseLine "crc.feed" = none ∧ parseLine "crc.feed 0x" = none ∧ parseLine "add 1" = none := by decide

/-- 00_scope.md R11: the fields and the value of an encoding, 0x42620000 being 56.5 (41_scale.md R106). -/
theorem test_f32ToReal : f32ToReal 0x42620000 = some 56.5 ∧ f32ToReal 0xC0C00000 = some (-6) ∧ f32ToReal 0x7F800000 = none := by
  decide +kernel

/-! ### Witnesses: the hypotheses of each statement can be met -/

theorem witness_StepRunsTheDecodedCommand :
    (State.reset.withCommand 0x10000000).pending = HostEvent.writeCmd 0x10000000 :: [] ∧
    decode 0x10000000 = .command .crcInit := by decide

/-- Every clause of the decode procedure, at boundary words. -/
theorem witness_DecodeFollowsTheDecodeProcedure :
    let op : Word → Nat := fun w => (w.extractLsb' 28 4).toNat
    8 ≤ op 0x80000000 ∧ 8 ≤ op 0xFFFFFFFF ∧
    (op 0x08000000 = 0 ∧ (0x08000000 : Word) &&& 0x0FFFFFFF ≠ 0) ∧ (op 0x00000000 = 0 ∧ ¬ (0x00000000 : Word) &&& 0x0FFFFFFF ≠ 0) ∧
    (op 0x10000001 = 1 ∧ (0x10000001 : Word) &&& 0x0FFFFFFF ≠ 0) ∧ (op 0x10000000 = 1 ∧ ¬ (0x10000000 : Word) &&& 0x0FFFFFFF ≠ 0) ∧
    (op 0x20008000 = 2 ∧ (0x20008000 : Word) &&& 0x0F00FFFF ≠ 0) ∧ (op 0x20FF0000 = 2 ∧ ¬ (0x20FF0000 : Word) &&& 0x0F00FFFF ≠ 0) ∧
    (op 0x30000100 = 3 ∧ (0x30000100 : Word) &&& 0x0FFFFF00 ≠ 0) ∧ (op 0x300000FF = 3 ∧ ¬ (0x300000FF : Word) &&& 0x0FFFFF00 ≠ 0) ∧
    (op 0x41000000 = 4 ∧ (0x41000000 : Word) &&& 0x0F000000 ≠ 0) ∧ (op 0x40FFFFFF = 4 ∧ ¬ (0x40FFFFFF : Word) &&& 0x0F000000 ≠ 0) ∧
    (op 0x52000000 = 5 ∧ (0x52000000 : Word) &&& 0x0E0000FF ≠ 0) ∧
    (op 0x50FFFF00 = 5 ∧ ¬ (0x50FFFF00 : Word) &&& 0x0E0000FF ≠ 0 ∧ (0x50FFFF00 : Word).getLsbD 24 = false) ∧
    (op 0x51FFFF00 = 5 ∧ ¬ (0x51FFFF00 : Word) &&& 0x0E0000FF ≠ 0 ∧ (0x51FFFF00 : Word).getLsbD 24 = true) ∧
    (op 0x60000080 = 6 ∧ (0x60000080 : Word) &&& 0x0E0000FF ≠ 0) ∧
    (op 0x60FFFF00 = 6 ∧ ¬ (0x60FFFF00 : Word) &&& 0x0E0000FF ≠ 0 ∧ (0x60FFFF00 : Word).getLsbD 24 = false) ∧
    (op 0x61FFFF00 = 6 ∧ ¬ (0x61FFFF00 : Word) &&& 0x0E0000FF ≠ 0 ∧ (0x61FFFF00 : Word).getLsbD 24 = true) ∧
    (op 0x7FFFFFFF = 7 ∧ (0x7FFFFFFF : Word) &&& 0x0FFFFFFF ≠ 0) ∧ (op 0x70000000 = 7 ∧ ¬ (0x70000000 : Word) &&& 0x0FFFFFFF ≠ 0) := by
  decide

theorem witness_EncodeOfDecodeIsTheWord : decode 0x406605FA = .command (.crcVal2 0x66 0x05 0xFA) := by decide

/-- A word with each opcode and a reserved bit: the hypotheses of the error clauses of the ten command statements, of
CommandErrorsAreRecordedAndDoNothingElse and of ReservedOpcodesHaveNoOtherMeaning. -/
theorem witness_reservedBits :
    ((0x00000001 : Word).extractLsb' 28 4 = 0x0#4 ∧ (0x00000001 : Word) &&& 0x0FFFFFFF ≠ 0) ∧
    ((0x18000000 : Word).extractLsb' 28 4 = 0x1#4 ∧ (0x18000000 : Word) &&& 0x0FFFFFFF ≠ 0) ∧
    ((0x20660001 : Word).extractLsb' 28 4 = 0x2#4 ∧ (0x20660001 : Word) &&& 0x0F00FFFF ≠ 0) ∧
    ((0x300100FA : Word).extractLsb' 28 4 = 0x3#4 ∧ (0x300100FA : Word) &&& 0x0FFFFF00 ≠ 0) ∧
    ((0x416605FA : Word).extractLsb' 28 4 = 0x4#4 ∧ (0x416605FA : Word) &&& 0x0F000000 ≠ 0) ∧
    ((0x50660501 : Word).extractLsb' 28 4 = 0x5#4 ∧ (0x50660501 : Word).getLsbD 24 = false ∧ (0x50660501 : Word) &&& 0x0E0000FF ≠ 0) ∧
    ((0x53660500 : Word).extractLsb' 28 4 = 0x5#4 ∧ (0x53660500 : Word).getLsbD 24 = true ∧ (0x53660500 : Word) &&& 0x0E0000FF ≠ 0) ∧
    ((0x68660500 : Word).extractLsb' 28 4 = 0x6#4 ∧ (0x68660500 : Word).getLsbD 24 = false ∧ (0x68660500 : Word) &&& 0x0E0000FF ≠ 0) ∧
    ((0x61660580 : Word).extractLsb' 28 4 = 0x6#4 ∧ (0x61660580 : Word).getLsbD 24 = true ∧ (0x61660580 : Word) &&& 0x0E0000FF ≠ 0) ∧
    ((0x71000000 : Word).extractLsb' 28 4 = 0x7#4 ∧ (0x71000000 : Word) &&& 0x0FFFFFFF ≠ 0) ∧
    8 ≤ ((0x80000000 : Word).extractLsb' 28 4).toNat := by decide

theorem witness_CrcFeedFeedsOneByte : (0xFA : Byte) = crc8 [0x66, 0x05] := by decide +kernel

theorem witness_CrcCheckComparesAndKeepsCrc : State.reset.crc = 0x00 ∧ (st 0xFA false false 0x0 0).crc = 0xFA := by decide

/-- The ends of the ranges of RAW, and two readings in order. -/
theorem witness_scaleRanges :
    (0x0003 : Raw).toNat ≤ 3 ∧ 0xFFFC ≤ (0xFFFC : Raw).toNat ∧ maskedValue 0x0003 < maskedValue 0x0004 ∧
    maskedValue 0x0000 ≤ maskedValue 0x0003 := by decide

theorem witness_ClrStatusClearsTheFlags :
    State.reset.matchFlag = false ∧ State.reset.err = false ∧ State.reset.ecause = 0x0 ∧
    decode 0x80000000 = .cmdError .reservedOp ∧ viewWord .status (st 0x00 true true 0x1 0) = 0x00000013 := by decide

theorem witness_CommandsChangeOnlyTheirOwnViews :
    nextOf (exec .nop State.reset) = some State.reset ∧
    nextOf (exec .crcInit State.reset) = some State.reset ∧
    nextOf (exec (.crcFeed 0x66) State.reset) = some (st 0x1D false false 0x0 0) ∧
    nextOf (exec (.crcCheck 0x00) State.reset) = some (st 0x00 true false 0x0 0) ∧
    nextOf (exec (.crcVal2 0x66 0x05 0xFA) State.reset) = some (st 0xFA true false 0x0 0) ∧
    nextOf (exec (.scaleTF32 0x6605) State.reset) = some (st 0x00 false false 0x0 0x41B964AF) ∧
    nextOf (exec (.scaleTFix 0x6605) State.reset) = some (st 0x00 false false 0x0 0x0000090D) ∧
    nextOf (exec (.scaleRhF32 0x7C80) State.reset) = some (st 0x00 false false 0x0 0x425B2A00) ∧
    nextOf (exec (.scaleRhFix 0x7C80) State.reset) = some (st 0x00 false false 0x0 0x00001567) ∧
    nextOf (exec .clrStatus State.reset) = some State.reset := by decide +kernel

/-- Also of AReadAfterACommandSeesItsResults and OnlyACmdWriteHasASideEffect. -/
theorem witness_CommandErrorsAreRecordedAndDoNothingElse :
    decode 0x00000000 = .command .nop ∧ (Instr.nop ≠ .clrStatus) := by decide

theorem witness_AnErrorBlocksNoLaterCommand : Instr.crcInit ≠ .clrStatus := by decide

/-- The two clauses, at the ends of the window. -/
theorem witness_WrongAccessesGetABusError :
    (0 : Int) ≤ 0 ∧ (0 : Int) < 32 ∧ Width.w1 ≠ .w4 ∧ (WriteData.b8 0).width ≠ .w4 ∧ (0 : Int) ≤ 31 ∧ (31 : Int) < 32 ∧
    (31 : Int) % 4 ≠ 0 := by decide

/-- Also of ReadsAreIdempotentAndCmdWritesAreNot: an access that answers a next state, and a write that changes something. -/
theorem witness_OnlyACmdWriteHasASideEffect :
    nextOf (step (State.reset.withEvent (.read 0x04 .w4))) = some { State.reset with reply := some (.data 0) } ∧
    nextOf (step (State.reset.withEvent (.write 0x00 (.b4 0x20660000)))) =
      some { st 0x1D false false 0x0 0 with reply := some .done } ∧
    (st 0x1D false false 0x0 0).crc ≠ State.reset.crc := by decide

theorem witness_AccessesOutsideTheWindowAreRefused : (-1 : Int) < 0 ∧ (32 : Int) ≤ 32 := by decide

theorem witness_TheBlockIsIdleWithoutAnAccess : State.reset.pending = [] := by decide

theorem witness_NoAccessInTheWindowStopsTheBlock :
    (State.reset.withEvent (.read 31 .w8)).pending = .read 31 .w8 :: [] ∧ (0 : Int) ≤ 31 ∧ (31 : Int) < 32 ∧
    (State.reset.withEvent (.write 0 (.b1 0))).pending = .write 0 (.b1 0) :: [] ∧ (0 : Int) ≤ 0 := by decide

/-- The state s and what comes next in it, for each kind of step the whole-machine statements speak of. -/
theorem witness_nextEvents :
    NextIsCommand (.scaleTF32 0x6605) (State.reset.withCommand 0x50660500) ∧
    NextIsCommand .crcInit (State.reset.withCommand 0x10000000) ∧
    NextIsCommand (.crcFeed 0x66) (State.reset.withCommand 0x20660000) ∧
    NextIsCommand (.crcCheck 0xFA) (State.reset.withCommand 0x300000FA) ∧
    NextIsCommand (.crcVal2 0x66 0x05 0xFA) (State.reset.withCommand 0x406605FA) ∧
    NextIsCommand .clrStatus (State.reset.withCommand 0x70000000) ∧
    NextIsError .reservedOp (State.reset.withCommand 0x80000000) ∧
    NextIsReset (State.reset.withEvent .reset) :=
  ⟨⟨_, _, rfl, by decide⟩, ⟨_, _, rfl, by decide⟩, ⟨_, _, rfl, by decide⟩, ⟨_, _, rfl, by decide⟩, ⟨_, _, rfl, by decide⟩,
    ⟨_, _, rfl, by decide⟩, ⟨_, _, rfl, by decide⟩, ⟨_, rfl⟩⟩

/-- Steps that change RES, CRC, MATCH, ERR and ECAUSE, each way. -/
theorem witness_stepsThatChangeAnItem :
    leaves (after (st 0x00 false false 0x0 0) 0x61200000) 0x00 false false 0x0 0x000003C3 ∧
    leaves (after (st 0x55 false false 0x0 0) 0x10000000) 0x00 false false 0x0 0 ∧
    leaves (after (st 0x00 false false 0x0 0) 0x30000000) 0x00 true false 0x0 0 ∧
    leaves (after (st 0x00 false false 0x0 0) 0x80000000) 0x00 false true 0x1 0 ∧
    leaves (after (st 0x00 false true 0x1 0) 0x70000000) 0x00 false false 0x0 0 := by decide +kernel

theorem witness_EveryStepKeepsTheErrorInvariant :
    (st 0x00 false true 0x2 0).Inv ∧ step (st 0x00 false true 0x2 0) = .next (st 0x00 false true 0x2 0) := by
  refine ⟨?_, rfl⟩
  unfold State.Inv
  decide

theorem witness_CrcIsLinear : [0x66, 0x05].length = ([0x01, 0x80] : List Byte).length := by decide

theorem witness_EverySingleBitFlipIsDetected : 0 < 8 ∧ 7 < 8 := by decide

theorem witness_RoundF32IsNearestTiesToEven : 0 < 2 ∧ |((-1 : Int) : ℚ) / (2 : Nat)| < 2 ^ 128 - 2 ^ 103 := by norm_num

/-- A safe run of the block: a command and the read of STATUS after it (20_memory.md R43, D5). -/
theorem witness_SafeRun : SafeRun 2 ((State.reset.withEvent (.read 0x04 .w4)).withCommand 0x10000000) :=
  ⟨by decide, { State.reset with reply := some (.data 0x00000000) }, rfl, rfl⟩

end Sys2Proof.Tests
end

section
/-! PROOFS. The architectural state (10_state.md): what the register views read, and who writes CRC, MATCH, ERR and ECAUSE. -/

namespace Sys2Proof.Machine

open Sys2Proof.Claims

/-! ### Reads and writes of the register window -/

/-- An aligned 4-byte read in the window answers the view's value and does nothing else (20_memory.md R41, R43). -/
theorem step_readWord (s : State) (off : Int) (hw : 0 ≤ off ∧ off < 32) (ha : off % 4 = 0) :
    step (s.withEvent (.read off .w4)) = .next { s with reply := some (.data (viewWord (viewAt off) s)) } := by
  rw [step_withEvent, performEvent, performRead_eq, if_pos hw, if_pos ⟨rfl, ha⟩]
  rfl

/-- An aligned word write in the window but to CMD is ignored and completes (20_memory.md R44, R45). -/
theorem step_writeWord_ignored (s : State) (off : Int) (w : Word) (hw : 0 < off ∧ off < 32) (ha : off % 4 = 0) :
    step (s.withEvent (.write off (.b4 w))) = .next { s with reply := some .done } := by
  rw [step_withEvent, performEvent, performWrite_eq, if_pos ⟨hw.1.le, hw.2⟩, if_neg hw.1.ne', if_pos ⟨rfl, ha⟩]
  rfl

/-- A 4-byte read of a named register answers its view (20_memory.md R41). -/
theorem step_readView (v : View) (s : State) :
    step (s.withEvent (.read v.offset .w4)) = .next { s with reply := some (.data (viewWord v s)) } := by
  have hat : viewAt v.offset = v := by cases v <;> rfl
  have h := step_readWord s v.offset (by cases v <;> decide) (by cases v <;> rfl)
  rwa [hat] at h

/-- Every view of the reset state reads 0 (10_state.md R33). -/
theorem viewWord_reset (v : View) : viewWord v State.reset = 0 := by
  cases v <;> decide

/-- The CRC view is CRC, zero-extended (10_state.md R30). -/
theorem viewWord_crc (s : State) : viewWord .crc s = BitVec.ofNat 32 s.crc.toNat :=
  (BitVec.ofNat_toNat 32 s.crc).symm

/-- The STATUS view as a number: MATCH, ERR and ECAUSE at their weights (10_state.md R28). -/
theorem statusWord_toNat (s : State) :
    (statusWord s).toNat = 16 * s.ecause.toNat + 2 * s.err.toNat + s.matchFlag.toNat := by
  have he := s.ecause.isLt
  have hE : s.err.toNat < 2 ^ 1 := Bool.toNat_lt _
  have hM : s.matchFlag.toNat < 2 ^ 1 := Bool.toNat_lt _
  rw [statusWord, BitVec.zeroExtend, BitVec.toNat_setWidth]
  simp only [BitVec.toNat_append, BitVec.toNat_ofBool, BitVec.toNat_ofNat, Nat.zero_mod, Nat.or_zero]
  rw [← Nat.shiftLeft_add_eq_or_of_lt hE, ← Nat.shiftLeft_add_eq_or_of_lt hM]
  simp only [Nat.shiftLeft_eq]
  omega

/-! ### What one step makes of the five items -/

theorem nextIsReset_items {s t : State} (hn : NextIsReset s) (h : step s = .next t) : SameItems State.reset t := by
  obtain ⟨rest, hp⟩ := hn
  rw [step_cons hp] at h
  cases h
  exact ⟨rfl, rfl, rfl, rfl, rfl⟩

theorem nextIsCommand_items {s t u : State} {i : Instr} (hn : NextIsCommand i s) (hu : exec i s = .next u)
    (h : step s = .next t) : SameItems u t := by
  obtain ⟨w, rest, hp, hd⟩ := hn
  rw [show s = { s with pending := HostEvent.writeCmd w :: rest } by rw [← hp], step_command hd hu] at h
  cases h
  exact ⟨rfl, rfl, rfl, rfl, rfl⟩

theorem nextIsError_items {s t : State} {cause : CmdCause} (hn : NextIsError cause s) (h : step s = .next t) :
    SameItems (cmdError cause s) t := by
  obtain ⟨w, rest, hp, hd⟩ := hn
  rw [show s = { s with pending := HostEvent.writeCmd w :: rest } by rw [← hp], step_writeCmd,
    runCommandWord_error hd] at h
  cases h
  exact ⟨rfl, rfl, rfl, rfl, rfl⟩

/-- The inversion of a step in terms of the five items alone: they stay, or a reset, a command or a command error comes next
and they are what it leaves. -/
theorem step_items_cases {s t : State} (h : step s = .next t) :
    SameItems s t ∨ (NextIsReset s ∧ SameItems State.reset t) ∨
    (∃ i u, NextIsCommand i s ∧ exec i s = .next u ∧ SameItems u t) ∨
    (∃ cause, NextIsError cause s ∧ SameItems (cmdError cause s) t) := by
  obtain ⟨-, rfl⟩ | ⟨rest, hp, -⟩ | ⟨w, rest, i, -, hp, hd, -, -⟩ | ⟨w, rest, cause, hp, hd, -⟩ |
    ⟨-, -, -, -, -, -, rfl⟩ := step_cases h
  · exact .inl ⟨rfl, rfl, rfl, rfl, rfl⟩
  · exact .inr (.inl ⟨⟨rest, hp⟩, nextIsReset_items ⟨rest, hp⟩ h⟩)
  · obtain ⟨u, hu, -⟩ := exec_completes i s
    have hn : NextIsCommand i s := ⟨w, rest, hp, hd⟩
    exact .inr (.inr (.inl ⟨i, u, hn, hu, nextIsCommand_items hn hu h⟩))
  · have hn : NextIsError cause s := ⟨w, rest, hp, hd⟩
    exact .inr (.inr (.inr ⟨cause, hn, nextIsError_items hn h⟩))
  · exact .inl ⟨rfl, rfl, rfl, rfl, rfl⟩

/-! ### Which commands write CRC and MATCH -/

/-- The commands that write CRC (10_state.md R23). -/
theorem exec_crc_changed {i : Instr} {s t : State} (h : exec i s = .next t) (hne : t.crc ≠ s.crc) :
    i = .crcInit ∨ (∃ a, i = .crcFeed a) ∨ ∃ a b c, i = .crcVal2 a b c := by
  cases i with
  | crcInit => exact .inl rfl
  | crcFeed a => exact .inr (.inl ⟨a, rfl⟩)
  | crcVal2 a b c => exact .inr (.inr ⟨a, b, c, rfl⟩)
  | _ => cases h; exact absurd rfl hne

/-- The commands that write MATCH (10_state.md R25). -/
theorem exec_matchFlag_changed {i : Instr} {s t : State} (h : exec i s = .next t) (hne : t.matchFlag ≠ s.matchFlag) :
    i = .clrStatus ∨ (∃ c, i = .crcCheck c) ∨ ∃ a b c, i = .crcVal2 a b c := by
  cases i with
  | clrStatus => exact .inl rfl
  | crcCheck c => exact .inr (.inl ⟨c, rfl⟩)
  | crcVal2 a b c => exact .inr (.inr ⟨a, b, c, rfl⟩)
  | _ => cases h; exact absurd rfl hne

/-! ### What a step makes of ERR and ECAUSE -/

/-- clr.status and reset clear ERR and ECAUSE (10_state.md R26, R27). -/
theorem error_cleared {s t : State} (h : step s = .next t) (hn : NextIsReset s ∨ NextIsCommand .clrStatus s) :
    t.err = false ∧ t.ecause = 0x0 := by
  obtain hn | hn := hn
  · obtain ⟨-, -, -, hE, hC⟩ := nextIsReset_items hn h
    exact ⟨hE, hC⟩
  · obtain ⟨-, -, -, hE, hC⟩ := nextIsCommand_items hn rfl h
    exact ⟨hE, hC⟩

/-- What a step does to ERR and ECAUSE: a clear, a command error, or nothing (10_state.md R26, R27). -/
theorem step_error_cases {s t : State} (h : step s = .next t) :
    (NextIsReset s ∨ NextIsCommand .clrStatus s) ∨ (∃ cause, NextIsError cause s) ∨
    (t.err = s.err ∧ t.ecause = s.ecause) := by
  obtain ⟨-, -, -, hE, hC⟩ | ⟨hn, -⟩ | ⟨i, u, hn, hu, -, -, -, hE, hC⟩ | ⟨cause, hn, -⟩ := step_items_cases h
  · exact .inr (.inr ⟨hE, hC⟩)
  · exact .inl (.inl hn)
  · by_cases hi : i = .clrStatus
    · subst hi; exact .inl (.inr hn)
    · obtain ⟨hE', hC'⟩ := exec_keeps_error i s u hu hi
      exact .inr (.inr ⟨hE.trans hE', hC.trans hC'⟩)
  · exact .inr (.inl ⟨cause, hn⟩)

/-- A command error sets ERR, and ECAUSE keeps the first cause (60_exceptions.md R131). -/
theorem error_recorded {s t : State} {cause : CmdCause} (h : step s = .next t) (hn : NextIsError cause s) :
    t.err = true ∧ t.ecause = if s.err then s.ecause else cause.code := by
  obtain ⟨-, -, -, hE, hC⟩ := nextIsError_items hn h
  exact ⟨hE, hC⟩

/-! ### The causes of a command error -/

/-- RESERVED_OP is the cause for exactly the reserved opcodes (60_exceptions.md R132). -/
theorem decode_eq_reservedOp_iff (w : Word) : decode w = .cmdError .reservedOp ↔ 0x8#4 ≤ fieldOp w := by
  refine ⟨fun h => ?_, decode_reservedOp w⟩
  obtain h0 | h1 | h2 | h3 | h4 | h5 | h6 | h7 | h8 := fieldOp_cases w
  · rw [decode_op0 w h0] at h; split_ifs at h; cases h
  · rw [decode_op1 w h1] at h; split_ifs at h; cases h
  · rw [decode_op2 w h2] at h; split_ifs at h; cases h
  · rw [decode_op3 w h3] at h; split_ifs at h; cases h
  · rw [decode_op4 w h4] at h; split_ifs at h; cases h
  · rw [decode_op5 w h5] at h; split_ifs at h; cases h
  · rw [decode_op6 w h6] at h; split_ifs at h; cases h
  · rw [decode_op7 w h7] at h; split_ifs at h; cases h
  · exact h8

/-- What ECAUSE records says of the word: 0x1 a reserved opcode, 0x2 a reserved field of a defined one (10_state.md R27). -/
theorem cause_code_cases {w : Word} {cause : CmdCause} (hd : decode w = .cmdError cause) :
    (cause.code = 0x1 ∧ 8 ≤ (fieldOp w).toNat) ∨
    (cause.code = 0x2 ∧ (fieldOp w).toNat < 8 ∧ decode w = .cmdError .reservedField) := by
  cases cause with
  | reservedOp => exact .inl ⟨rfl, (decode_eq_reservedOp_iff w).mp hd⟩
  | reservedField =>
    refine .inr ⟨rfl, lt_of_not_ge fun h8 => ?_, hd⟩
    rw [decode_reservedOp w h8] at hd
    cases hd

/-! ### The obligations -/

/-- Settles O1: a read of each view answers its word in the reset state, which is 0. -/
theorem resetLeavesEveryItemAtItsResetValue : Obligations.ResetLeavesEveryItemAtItsResetValue :=
  ⟨rfl, rfl, rfl, rfl, rfl, fun v => ⟨_, step_readView v _, by rw [viewWord_reset]⟩⟩

/-- Settles O29: each field of STATUS is read off its value as a number. -/
theorem statusViewHasItsLayout : Obligations.StatusViewHasItsLayout := by
  intro s
  have hv := statusWord_toNat s
  have he := s.ecause.isLt
  have hE := Bool.toNat_lt s.err
  have hM := Bool.toNat_lt s.matchFlag
  refine ⟨⟨statusWord s, step_readView .status s, ?_, ?_, ?_, ?_, ?_⟩,
    fun w => step_writeWord_ignored s 0x04 w (by decide) rfl⟩
  · rw [BitVec.getLsbD, Nat.testBit_eq_decide_div_mod_eq, hv]
    cases s.matchFlag <;> simp <;> omega
  · rw [BitVec.getLsbD, Nat.testBit_eq_decide_div_mod_eq, hv]
    cases s.err <;> simp <;> omega
  all_goals
    apply BitVec.eq_of_toNat_eq
    rw [extract_toNat, hv]
    simp
    omega

/-- Settles O30, by the one rule for word reads and the one for ignored word writes. -/
theorem viewsReadTheStateAndIgnoreWrites : Obligations.ViewsReadTheStateAndIgnoreWrites := by
  intro s
  refine ⟨step_readView .cmd s, viewWord_crc s ▸ step_readView .crc s, step_readView .res s, ?_, ?_⟩
  · intro off hoff
    have hres : viewAt off = .reserved := by revert off; decide
    rw [step_readWord s off (by revert off; decide) (by revert off; decide), hres]
    rfl
  · intro off hoff w
    exact step_writeWord_ignored s off w (by revert off; decide) (by revert off; decide)

/-- Settles O39, by the inversion of a step and of `exec` at CRC. -/
theorem onlyCrcCommandsAndResetChangeCrc : Obligations.OnlyCrcCommandsAndResetChangeCrc := by
  intro s t h
  refine ⟨fun hn => (nextIsCommand_items hn rfl h).1, fun a hn => (nextIsCommand_items hn rfl h).1,
    fun a b c hn => (nextIsCommand_items hn rfl h).1, fun hne => ?_⟩
  obtain ⟨hcrc, -⟩ | ⟨hn, -⟩ | ⟨i, u, hn, hu, hcrc, -⟩ | ⟨cause, -, hcrc, -⟩ := step_items_cases h
  · exact absurd hcrc hne
  · exact .inl hn
  · obtain rfl | ⟨a, rfl⟩ | ⟨a, b, c, rfl⟩ := exec_crc_changed hu (hcrc ▸ hne)
    · exact .inr (.inl hn)
    · exact .inr (.inr (.inl ⟨a, hn⟩))
    · exact .inr (.inr (.inr ⟨a, b, c, hn⟩))
  · exact absurd hcrc hne

/-- Settles O40, by the inversion of a step and of `exec` at MATCH. -/
theorem onlyComparisonsAndClearsChangeMatch : Obligations.OnlyComparisonsAndClearsChangeMatch := by
  intro s t h
  refine ⟨fun c hn => ?_, fun a b c hn => ?_, ?_, fun hne => ?_⟩
  · obtain ⟨-, -, hmatch, -⟩ := nextIsCommand_items hn rfl h
    exact hmatch
  · obtain ⟨-, -, hmatch, -⟩ := nextIsCommand_items hn rfl h
    exact hmatch
  · rintro (hn | hn)
    · obtain ⟨-, -, hmatch, -⟩ := nextIsCommand_items hn rfl h
      exact hmatch
    · obtain ⟨-, -, hmatch, -⟩ := nextIsReset_items hn h
      exact hmatch
  obtain ⟨-, -, hmatch, -⟩ | ⟨hn, -⟩ | ⟨i, u, hn, hu, -, -, hmatch, -⟩ | ⟨cause, -, -, -, hmatch, -⟩ := step_items_cases h
  · exact absurd hmatch hne
  · exact .inl hn
  · obtain rfl | ⟨c, rfl⟩ | ⟨a, b, c, rfl⟩ := exec_matchFlag_changed hu (hmatch ▸ hne)
    · exact .inr (.inl hn)
    · exact .inr (.inr (.inl ⟨c, hn⟩))
    · exact .inr (.inr (.inr ⟨a, b, c, hn⟩))
  · exact absurd hmatch hne

/-- Settles O41, by the three things a step can do to ERR. -/
theorem errIsSticky : Obligations.ErrIsSticky := by
  intro s t h
  refine ⟨fun cause hn => (error_recorded h hn).1, fun h0 h1 => ?_, fun h1 h0 => ?_, fun hn => (error_cleared h hn).1⟩
  · obtain hn | hn | ⟨hE, -⟩ := step_error_cases h
    · simp [(error_cleared h hn).1] at h1
    · exact hn
    · simp [hE, h0] at h1
  · obtain hn | ⟨cause, hn⟩ | ⟨hE, -⟩ := step_error_cases h
    · exact hn
    · simp [(error_recorded h hn).1] at h0
    · simp [hE, h1] at h0

/-- Settles O42, by the three things a step can do to ECAUSE; the cause is read off the decoded word. -/
theorem ecauseKeepsTheFirstCause : Obligations.EcauseKeepsTheFirstCause := by
  intro s t h
  refine ⟨fun cause hn h0 => ?_, fun hn => (error_cleared h hn).2, fun hne => ?_⟩
  · simpa [h0] using (error_recorded h hn).2
  obtain hn | ⟨cause, hn⟩ | ⟨-, hC⟩ := step_error_cases h
  · exact .inl ⟨(error_cleared h hn).2, hn⟩
  · have hC := (error_recorded h hn).2
    have h0 : s.err = false := by
      by_contra h1
      exact hne (by simpa [h1] using hC)
    obtain ⟨w, rest, hp, hd⟩ := hn
    rw [h0] at hC
    refine .inr ⟨h0, w, rest, hp, ?_⟩
    rw [show t.ecause = cause.code from hC]
    exact cause_code_cases hd
  · exact absurd hC hne

end Sys2Proof.Machine
end

section
/-! PROOFS. The register window (20_memory.md): the byte order of the data bytes, the one access with a side effect, and the
accesses that can be repeated. -/

namespace Sys2Proof.Machine

open Sys2Proof.Claims

/-! ### The order of the data bytes -/

/-- The big-endian combine is the two bytes side by side, the first one high (20_memory.md R46). -/
theorem combine_eq_append (d0 d1 : Byte) : combine d0 d1 = d0 ++ d1 := by
  apply BitVec.eq_of_getLsbD_eq
  intro i hi
  simp only [combine, BitVec.zeroExtend, BitVec.getLsbD_or, BitVec.getLsbD_shiftLeft, BitVec.getLsbD_setWidth,
    BitVec.getLsbD_append]
  grind

theorem combine_toNat (d0 d1 : Byte) : (combine d0 d1).toNat = 256 * d0.toNat + d1.toNat := by
  rw [combine_eq_append, BitVec.toNat_append, ← Nat.shiftLeft_add_eq_or_of_lt d1.isLt, Nat.shiftLeft_eq]
  omega

/-- Two bytes shifted to A and B and a third in place fill the empty fields of a word of format W (30_encoding.md R60). -/
theorem packW_or_bytes (op : BitVec 4) (rsv : BitVec 3) (f : BitVec 1) (a b c : Byte) :
    packW op rsv f 0 0 0 ||| (a.zeroExtend 32 <<< 16 ||| b.zeroExtend 32 <<< 8) ||| c.zeroExtend 32 =
      packW op rsv f a b c := by
  apply BitVec.eq_of_getLsbD_eq
  intro i hi
  simp only [packW, BitVec.zeroExtend, BitVec.getLsbD_or, BitVec.getLsbD_shiftLeft, BitVec.getLsbD_setWidth,
    BitVec.getLsbD_append]
  grind

/-- Two bytes shifted to A and B are RAW in a word with field C empty (30_encoding.md R63). -/
theorem packW_or_data (op : BitVec 4) (rsv : BitVec 3) (f : BitVec 1) (a b : Byte) :
    packW op rsv f 0 0 0 ||| (a.zeroExtend 32 <<< 16 ||| b.zeroExtend 32 <<< 8) = packW op rsv f a b 0 := by
  simpa using packW_or_bytes op rsv f a b 0

/-! ### What the decoder answers for a word put together from its fields -/

theorem decode_packW_crcFeed (a : Byte) : decode (packW 0x2 0 0 a 0 0) = .command (.crcFeed a) := by
  rw [decode_op2 _ (fieldOp_packW ..)]
  simp

theorem decode_packW_crcVal2 (a b c : Byte) : decode (packW 0x4 0 0 a b c) = .command (.crcVal2 a b c) := by
  rw [decode_op4 _ (fieldOp_packW ..)]
  simp

/-- A temperature scaler takes field A as the high byte of RAW and field B as the low byte (30_encoding.md R63). -/
theorem decode_packW_scaleT (f : BitVec 1) (a b : Byte) : decode (packW 0x5 0 f a b 0) =
    if f = 0 then .command (.scaleTF32 (combine a b)) else .command (.scaleTFix (combine a b)) := by
  rw [decode_op5 _ (fieldOp_packW ..), combine_eq_append]
  simp

/-- A humidity scaler takes its bytes in the same order (30_encoding.md R63). -/
theorem decode_packW_scaleRh (f : BitVec 1) (a b : Byte) : decode (packW 0x6 0 f a b 0) =
    if f = 0 then .command (.scaleRhF32 (combine a b)) else .command (.scaleRhFix (combine a b)) := by
  rw [decode_op6 _ (fieldOp_packW ..), combine_eq_append]
  simp

/-! ### What an access leaves -/

theorem sameItems_answer (r : Reply) (s : State) : SameItems s (answer r s) := ⟨rfl, rfl, rfl, rfl, rfl⟩

/-- No view shows the last answer to the host (10_state.md R20). -/
theorem viewWord_answer (v : View) (r : Reply) (s : State) : viewWord v (answer r s) = viewWord v s := by
  cases v <;> rfl

/-- What a read makes of a state does not depend on what the host got back before (20_memory.md R48). -/
theorem performRead_answer (off : Int) (n : Width) (r : Reply) (s : State) :
    performRead off n (answer r s) = performRead off n s := by
  rw [performRead_eq, performRead_eq, viewWord_answer]
  rfl

/-- A read that is performed leaves nothing but its answer (20_memory.md R42). -/
theorem step_read_next {s t : State} {off : Int} {n : Width} (h : step (s.withEvent (.read off n)) = .next t) :
    ∃ r, t = answer r s := by
  obtain ⟨he, -⟩ | ⟨w, he, -⟩ | ⟨-, -, hr⟩ := performEvent_cases (.read off n) s t h
  · cases he
  · cases he
  · exact hr

/-- A write that is performed is a word written to CMD, or leaves nothing but its answer (20_memory.md R42 to R45). -/
theorem step_write_next {s t : State} {off : Int} {d : WriteData} (h : step (s.withEvent (.write off d)) = .next t) :
    (off = 0x00 ∧ ∃ w, d = .b4 w) ∨ ∃ r, t = answer r s := by
  obtain ⟨he, -⟩ | ⟨w, he, -⟩ | ⟨-, -, hr⟩ := performEvent_cases (.write off d) s t h
  · cases he
  · cases he
    exact .inl ⟨rfl, w, rfl⟩
  · exact .inr hr

/-- Two writes of one crc.feed word feed its byte twice (20_memory.md R48). -/
theorem run_crcFeed_twice (s : State) (a : Byte) :
    core.run 2 ((s.withCommand (encode (.crcFeed a))).withCommand (encode (.crcFeed a))) =
      .next { s with crc := crc8Feed (crc8Feed s.crc a) a, reply := some .done } := by
  have hd : decode (encode (.crcFeed a)) = .command (.crcFeed a) := decode_packW_crcFeed a
  have hfeed (u : State) : exec (.crcFeed a) u = .next (setCrc (crc8Feed u.crc a) u) := rfl
  exact (run_command 1 hd (hfeed s) (HostEvent.writeCmd (encode (.crcFeed a)) :: s.pending)).trans
    (run_command 0 hd (hfeed { setCrc (crc8Feed s.crc a) s with reply := some .done }) s.pending)

/-! ### The obligations -/

/-- Settles O12: each word is format W with the bytes in fields A, B and C, and the decoder reads it field by field. -/
theorem dataBytesAreBigEndian : Obligations.DataBytesAreBigEndian := by
  intro d0 d1 c
  refine ⟨combine_toNat d0 d1, combine_eq_append d0 d1, ?_, ?_, ?_, ?_, ?_, crc8_pair d0 d1⟩
  · exact (congrArg decode (packW_or_data 0x5 0 0 d0 d1)).trans (decode_packW_scaleT 0 d0 d1)
  · exact (congrArg decode (packW_or_data 0x5 0 1 d0 d1)).trans (decode_packW_scaleT 1 d0 d1)
  · exact (congrArg decode (packW_or_data 0x6 0 0 d0 d1)).trans (decode_packW_scaleRh 0 d0 d1)
  · exact (congrArg decode (packW_or_data 0x6 0 1 d0 d1)).trans (decode_packW_scaleRh 1 d0 d1)
  · exact (congrArg decode (packW_or_bytes 0x4 0 0 d0 d1 c)).trans (decode_packW_crcVal2 d0 d1 c)

/-- Settles O31, by what a step on a read and a step on a write can leave. -/
theorem onlyACmdWriteHasASideEffect : Obligations.OnlyACmdWriteHasASideEffect := by
  refine ⟨fun s w i hd => ?_, fun s t off n h => ?_, fun s t off d h hne => ?_⟩
  · obtain ⟨t, ht, -⟩ := exec_completes i s
    exact ⟨t, ht, (runCommandWord_command hd s).trans (congrArg answerDone ht)⟩
  · obtain ⟨r, rfl⟩ := step_read_next h
    exact sameItems_answer r s
  · obtain hcmd | ⟨r, rfl⟩ := step_write_next h
    · exact hcmd
    · exact absurd (sameItems_answer r s) hne

/-- Settles O32: a read sees no earlier answer, so it repeats; feeding 0x01 twice is not feeding it once. -/
theorem readsAreIdempotentAndCmdWritesAreNot : Obligations.ReadsAreIdempotentAndCmdWritesAreNot := by
  refine ⟨fun s t off n h => ?_, run_crcFeed_twice, ⟨0x00, 0x01, by decide +kernel⟩, fun s w off hoff => ?_⟩
  · obtain ⟨r, rfl⟩ := step_read_next h
    exact ⟨sameItems_answer r s, (performRead_answer off n r s).trans h⟩
  · obtain ⟨-, -, -, -, hignored⟩ := viewsReadTheStateAndIgnoreWrites s
    exact hignored off hoff w

end Sys2Proof.Machine
end

section
/-! PROOFS. The encoding (30_encoding.md): the decode procedure word by word, what a reserved opcode and the nop word select,
and the expansions of the pseudo-instructions. -/

namespace Sys2Proof.Machine

open Sys2Proof.Claims

/-! ### The decoder's answer by the bits under a mask -/

theorem fieldOp_eq_of_toNat {w : Word} {n : Nat} (h : (w.extractLsb' 28 4).toNat = n) : fieldOp w = BitVec.ofNat 4 n := by
  rw [← h, BitVec.ofNat_toNat, BitVec.setWidth_eq]
  rfl

/-- A decoder answer that asks for zero fields asks for no bit under the mask of those fields (30_encoding.md R65). -/
theorem decode_of_mask {w mask : Word} {d : Decoded} {P : Prop} [Decidable P] (hmask : w &&& mask = 0 ↔ P)
    (hdec : decode w = if P then d else .cmdError .reservedField) :
    (w &&& mask ≠ 0 → decode w = .cmdError .reservedField) ∧ (¬ w &&& mask ≠ 0 → decode w = d) :=
  ⟨fun h => hdec.trans (if_neg (mt hmask.mpr h)), fun h => hdec.trans (if_pos (hmask.mp (not_not.mp h)))⟩

/-- The same where bit 24 chooses between two commands (30_encoding.md R68). -/
theorem decode_of_mask_bit24 {w mask : Word} {d0 d1 : Decoded} {P : Prop} [Decidable P] (hmask : w &&& mask = 0 ↔ P)
    (hdec : decode w = if P then (if fieldF w = 0 then d0 else d1) else .cmdError .reservedField) :
    (w &&& mask ≠ 0 → decode w = .cmdError .reservedField) ∧
    (¬ w &&& mask ≠ 0 → w.getLsbD 24 = false → decode w = d0) ∧
    (¬ w &&& mask ≠ 0 → w.getLsbD 24 = true → decode w = d1) := by
  obtain ⟨herr, hcmd⟩ := decode_of_mask hmask hdec
  refine ⟨herr, fun hm hF => ?_, fun hm hF => ?_⟩
  · exact (hcmd hm).trans (if_pos ((fieldF_eq_zero_iff w).mpr hF))
  · exact (hcmd hm).trans (if_neg (mt (fieldF_eq_zero_iff w).mp (Bool.ne_false_iff.mpr hF)))

/-! ### Which words select a command -/

/-- A word that selects a command carries that command's opcode (30_encoding.md R64). -/
theorem fieldOp_of_decode {w : Word} {i : Instr} (h : decode w = .command i) : fieldOp w = fieldOp (encode i) := by
  obtain h0 | h1 | h2 | h3 | h4 | h5 | h6 | h7 | h8 := fieldOp_cases w
  · rw [decode_op0 w h0] at h; split_ifs at h; cases h; exact h0
  · rw [decode_op1 w h1] at h; split_ifs at h; cases h; exact h1
  · rw [decode_op2 w h2] at h; split_ifs at h; cases h; exact h2.trans (fieldOp_packW ..).symm
  · rw [decode_op3 w h3] at h; split_ifs at h; cases h; exact h3.trans (fieldOp_packW ..).symm
  · rw [decode_op4 w h4] at h; split_ifs at h; cases h; exact h4.trans (fieldOp_packW ..).symm
  · rw [decode_op5 w h5] at h; split_ifs at h <;> cases h <;> exact h5.trans (fieldOp_packW ..).symm
  · rw [decode_op6 w h6] at h; split_ifs at h <;> cases h <;> exact h6.trans (fieldOp_packW ..).symm
  · rw [decode_op7 w h7] at h; split_ifs at h; cases h; exact h7
  · rw [decode_reservedOp w h8] at h; cases h

/-- The nop opcode with every other field zero is the zero word (30_encoding.md R66). -/
theorem decode_eq_nop_iff (w : Word) : decode w = .command .nop ↔ w = 0x00000000 := by
  constructor
  · intro h
    have hop : fieldOp w = 0 := fieldOp_of_decode h
    rw [decode_op0 w hop] at h
    split_ifs at h with hzero
    obtain ⟨hRsv, hF, hA, hB, hC⟩ := hzero
    exact word_ext hop hRsv hF hA hB hC
  · rintro rfl
    decide

/-- A reserved opcode is a command error with cause 0x1 in every state (30_encoding.md R66). -/
theorem wordErrs_reservedOp {w : Word} (h : 0x8#4 ≤ fieldOp w) : WordErrs w 0x1 := by
  intro s
  rw [step_withCommand, runCommandWord_error (decode_reservedOp w h)]
  rfl

/-! ### The assembler's lines one by one and together -/

theorem assemble_crcFeed (d : Nat) :
    assemble (.crcFeed d) = if byteInRange d then some [encode (.crcFeed (BitVec.ofNat 8 d))] else none := rfl

theorem assemble_crcCheck (c : Nat) :
    assemble (.crcCheck c) = if byteInRange c then some [encode (.crcCheck (BitVec.ofNat 8 c))] else none := rfl

theorem assemble_crcValn (ds : List Nat) (c : Nat) : assemble (.crcValn ds c) =
    if ds.all byteInRange && byteInRange c then
      some ((validateSequence (ds.map (BitVec.ofNat 8)) (BitVec.ofNat 8 c)).map encode) else none := rfl

/-- Lines of crc.feed assemble together exactly when each byte is in range (30_encoding.md R70). -/
theorem mapM_assemble_crcFeed (ds : List Nat) : (ds.mapM fun d => assemble (.crcFeed d)) =
    if ds.all byteInRange then some (ds.map fun d => [encode (.crcFeed (BitVec.ofNat 8 d))]) else none := by
  induction ds with
  | nil => rfl
  | cons d ds ih =>
    rw [List.mapM_cons, ih, assemble_crcFeed, List.all_cons]
    cases byteInRange d <;> cases ds.all byteInRange <;> rfl

/-- The words of a validation: those of crc.init, of each crc.feed, and of crc.check (30_encoding.md R71). -/
theorem validateSequence_map_encode (ds : List Nat) (c : Byte) :
    (validateSequence (ds.map (BitVec.ofNat 8)) c).map encode =
      [encode .crcInit] ++ (ds.map fun d => [encode (.crcFeed (BitVec.ofNat 8 d))]).flatten ++ [encode (.crcCheck c)] := by
  rw [← List.flatMap_def, ← List.map_eq_flatMap]
  simp [validateSequence]

/-- A byte and a list of one byte are in range together, and expand alike (30_encoding.md R71). -/
theorem assemble_crcVal1 (a c : Nat) : assemble (.crcVal1 a c) = assemble (.crcValn [a] c) := by
  rw [assemble_crcValn, List.all_cons, List.all_nil, Bool.and_true]
  rfl

/-! ### The obligations -/

/-- Settles O8: one clause per opcode, each the decoder's answer for that opcode with its zero fields read as a mask. -/
theorem decodeFollowsTheDecodeProcedure : Obligations.DecodeFollowsTheDecodeProcedure := by
  intro w
  refine ⟨fun h => decode_reservedOp w h, fun h => ?_, fun h => ?_, fun h => ?_, fun h => ?_, fun h => ?_, fun h => ?_,
    fun h => ?_, fun h => ?_⟩
  · exact decode_of_mask (and_0x0FFFFFFF_eq_zero_iff w) (decode_op0 w (fieldOp_eq_of_toNat h))
  · exact decode_of_mask (and_0x0FFFFFFF_eq_zero_iff w) (decode_op1 w (fieldOp_eq_of_toNat h))
  · exact decode_of_mask (and_0x0F00FFFF_eq_zero_iff w) (decode_op2 w (fieldOp_eq_of_toNat h))
  · exact decode_of_mask (and_0x0FFFFF00_eq_zero_iff w) (decode_op3 w (fieldOp_eq_of_toNat h))
  · exact decode_of_mask (and_0x0F000000_eq_zero_iff w) (decode_op4 w (fieldOp_eq_of_toNat h))
  · exact decode_of_mask_bit24 (and_0x0E0000FF_eq_zero_iff w) (decode_op5 w (fieldOp_eq_of_toNat h))
  · exact decode_of_mask_bit24 (and_0x0E0000FF_eq_zero_iff w) (decode_op6 w (fieldOp_eq_of_toNat h))
  · exact decode_of_mask (and_0x0FFFFFFF_eq_zero_iff w) (decode_op7 w (fieldOp_eq_of_toNat h))

/-- Settles O25: the opcode check comes before every other, and nop has one word. -/
theorem reservedOpcodesHaveNoOtherMeaning : Obligations.ReservedOpcodesHaveNoOtherMeaning := by
  refine ⟨fun w h8 => ⟨wordErrs_reservedOp h8, fun i hi => ?_⟩, decode_eq_nop_iff⟩
  rw [decode_reservedOp w h8] at hi
  cases hi

/-- Settles O59: the parts of crc.valn are all in range exactly when the line is; the other four stand for one line. -/
theorem pseudoInstructionsExpandAsDefined : Obligations.PseudoInstructionsExpandAsDefined := by
  refine ⟨fun _ => rfl, fun _ => rfl, assemble_crcVal1, fun _ _ _ => rfl, fun ds c => ?_⟩
  rw [show assemble .crcInit = some [encode .crcInit] from rfl, mapM_assemble_crcFeed, assemble_crcCheck,
    assemble_crcValn, validateSequence_map_encode]
  cases ds.all byteInRange <;> cases byteInRange c <;> rfl

end Sys2Proof.Machine
end

section
/-! PROOFS. The CRC-8 validator (40_crc.md): what each of its four commands does and its word, the 9-bit reading of the round,
and the validation of a payload by streaming. -/

namespace Sys2Proof.Machine

open Sys2Proof.Claims

/-! ### What the four commands do -/

theorem exec_crcInit (s : State) : exec .crcInit s = .next { s with crc := 0x00 } := rfl

theorem exec_crcFeed (a : Byte) (s : State) : exec (.crcFeed a) s = .next { s with crc := crc8Feed s.crc a } := rfl

theorem exec_crcCheck (c : Byte) (s : State) :
    exec (.crcCheck c) s = .next { s with matchFlag := decide (s.crc = c) } := rfl

theorem exec_crcVal2 (a b c : Byte) (s : State) : exec (.crcVal2 a b c) s =
    .next { s with crc := crc8 [a, b], matchFlag := decide (crc8 [a, b] = c) } := rfl

/-- crc.val2 where the checksum of its two bytes is known (40_crc.md R86). -/
theorem exec_crcVal2_of_crc8 {a b r : Byte} (h : crc8 [a, b] = r) (c : Byte) (s : State) :
    exec (.crcVal2 a b c) s = .next { s with crc := r, matchFlag := decide (r = c) } := by
  rw [exec_crcVal2, h]

/-! ### Their words -/

theorem decode_encode_crcInit : decode (encode .crcInit) = .command .crcInit := by decide

theorem decode_encode_crcFeed (a : Byte) : decode (encode (.crcFeed a)) = .command (.crcFeed a) :=
  decode_packW_crcFeed a

theorem decode_encode_crcCheck (c : Byte) : decode (encode (.crcCheck c)) = .command (.crcCheck c) := by
  rw [encode, decode_op3 _ (fieldOp_packW ..)]
  simp

theorem decode_encode_crcVal2 (a b c : Byte) : decode (encode (.crcVal2 a b c)) = .command (.crcVal2 a b c) :=
  decode_packW_crcVal2 a b c

theorem encode_crcFeed (a : Byte) : encode (.crcFeed a) = 0x20000000#32 ||| (a.zeroExtend 32 <<< 16) := by
  have h : encode (.crcFeed a) = 0x20000000#32 ||| (a.zeroExtend 32 <<< 16 ||| (0 : Byte).zeroExtend 32 <<< 8) :=
    (packW_or_data 0x2 0 0 a 0).symm
  simpa using h

theorem encode_crcCheck (c : Byte) : encode (.crcCheck c) = 0x30000000#32 ||| c.zeroExtend 32 := by
  have h : encode (.crcCheck c) = 0x30000000#32 |||
      ((0 : Byte).zeroExtend 32 <<< 16 ||| (0 : Byte).zeroExtend 32 <<< 8) ||| c.zeroExtend 32 :=
    (packW_or_bytes 0x3 0 0 0 0 c).symm
  simpa using h

theorem encode_crcVal2 (a b c : Byte) : encode (.crcVal2 a b c) =
    0x40000000#32 ||| (a.zeroExtend 32 <<< 16) ||| (b.zeroExtend 32 <<< 8) ||| c.zeroExtend 32 := by
  rw [BitVec.or_assoc (0x40000000#32)]
  exact (packW_or_bytes 0x4 0 0 a b c).symm

/-- A word is a command when it is the command's encoding, decodes back, and f is what the command does. -/
theorem wordIs_of_exec {w : Word} {i : Instr} {f : State → State} (hw : encode i = w)
    (hd : decode (encode i) = .command i) (hf : ∀ s, exec i s = .next (f s)) : WordIs w i f := by
  subst hw
  refine ⟨rfl, fun s => ?_⟩
  rw [step_withCommand, runCommandWord_command hd, hf]
  rfl

/-- A reserved field that is not zero is a command error with cause 0x2 in every state (30_encoding.md R65). -/
theorem wordErrs_reservedField {w : Word} (h : decode w = .cmdError .reservedField) : WordErrs w 0x2 := by
  intro s
  rw [step_withCommand, runCommandWord_error h]
  rfl

theorem reservedBits_crcInit : ReservedBits 0x1 0x0FFFFFFF := fun w hop hbits =>
  wordErrs_reservedField ((decode_of_mask (and_0x0FFFFFFF_eq_zero_iff w) (decode_op1 w hop)).1 hbits)

theorem reservedBits_crcFeed : ReservedBits 0x2 0x0F00FFFF := fun w hop hbits =>
  wordErrs_reservedField ((decode_of_mask (and_0x0F00FFFF_eq_zero_iff w) (decode_op2 w hop)).1 hbits)

theorem reservedBits_crcCheck : ReservedBits 0x3 0x0FFFFF00 := fun w hop hbits =>
  wordErrs_reservedField ((decode_of_mask (and_0x0FFFFF00_eq_zero_iff w) (decode_op3 w hop)).1 hbits)

theorem reservedBits_crcVal2 : ReservedBits 0x4 0x0F000000 := fun w hop hbits =>
  wordErrs_reservedField ((decode_of_mask (and_0x0F000000_eq_zero_iff w) (decode_op4 w hop)).1 hbits)

/-! ### The 9-bit reading of the round -/

/-- The ninth bit of the shift and of 0x131 is cut off, so what is left is the 8-bit shift and 0x31 (40_crc.md R82). -/
theorem truncate_nineBit_shift_xor (c : Byte) :
    ((c.zeroExtend 9 <<< 1) ^^^ 0x131#9).truncate 8 = (c <<< 1) ^^^ Config.crcPoly := by
  have hshift : (c.zeroExtend 9 <<< 1).truncate 8 = c <<< 1 := by
    apply BitVec.eq_of_getLsbD_eq
    intro i hi
    simp
  rw [BitVec.truncate, BitVec.setWidth_xor]
  exact congrArg₂ _ hshift (by decide)

theorem nineBitRound_eq_crc8Round (c : Byte) : nineBitRound c = crc8Round c := by
  rw [nineBitRound, truncate_nineBit_shift_xor]
  rfl

theorem nineBitFeed_eq_crc8Feed (c b : Byte) : nineBitFeed c b = crc8Feed c b := by
  simp only [nineBitFeed, nineBitRound_eq_crc8Round]
  rfl

/-! ### Streaming -/

/-- The writes of some commands begin with the write of the first. -/
theorem commandWrites_cons_append (i : Instr) (is : List Instr) (rest : List HostEvent) :
    commandWrites (i :: is) ++ rest = HostEvent.writeCmd (encode i) :: (commandWrites is ++ rest) := rfl

theorem commandWrites_append (is js : List Instr) : commandWrites (is ++ js) = commandWrites is ++ commandWrites js :=
  List.map_append

/-- One crc.feed per byte, after some completed write, folds the bytes into CRC from whatever it held (40_crc.md R84). -/
theorem run_crcFeeds (ds : List Byte) (k : Nat) (s : State) (rest : List HostEvent) :
    core.run (ds.length + k) { s with pending := commandWrites (ds.map .crcFeed) ++ rest, reply := some .done } =
      core.run k { s with crc := ds.foldl crc8Feed s.crc, pending := rest, reply := some .done } := by
  induction ds generalizing s with
  | nil => rw [List.length_nil, Nat.zero_add]; rfl
  | cons d ds ih =>
    rw [List.length_cons, Nat.add_right_comm, List.map_cons, commandWrites_cons_append]
    exact (run_command (ds.length + k) (decode_encode_crcFeed d) (exec_crcFeed d { s with reply := some .done }) _).trans
      (ih { s with crc := crc8Feed s.crc d })

/-- A validation by streaming: crc.init, the bytes one by one, crc.check (40_crc.md R87). -/
theorem run_validateSequence (s : State) (ds : List Byte) (c : Byte) (rest : List HostEvent) :
    core.run (ds.length + 2) { s with pending := commandWrites (validateSequence ds c) ++ rest } =
      .next { s with crc := crc8 ds, matchFlag := decide (crc8 ds = c), pending := rest, reply := some .done } := by
  have hpending : commandWrites (validateSequence ds c) ++ rest = HostEvent.writeCmd (encode .crcInit) ::
      (commandWrites (ds.map .crcFeed) ++ HostEvent.writeCmd (encode (.crcCheck c)) :: rest) := by
    rw [validateSequence, List.cons_append, commandWrites_cons_append, commandWrites_append, List.append_assoc]
    rfl
  rw [hpending]
  calc
    _ = core.run (ds.length + 1) { s with
          crc := 0x00
          pending := commandWrites (ds.map .crcFeed) ++ HostEvent.writeCmd (encode (.crcCheck c)) :: rest
          reply := some .done } :=
      run_command _ decode_encode_crcInit (exec_crcInit s) _
    _ = core.run 1 { s with
          crc := crc8 ds
          pending := HostEvent.writeCmd (encode (.crcCheck c)) :: rest
          reply := some .done } :=
      run_crcFeeds ds 1 { s with crc := 0x00 } _
    _ = _ :=
      run_command 0 (decode_encode_crcCheck c) (exec_crcCheck c { s with crc := crc8 ds, reply := some .done }) rest

theorem run_crcVal2 (s : State) (d0 d1 c : Byte) (rest : List HostEvent) :
    core.run 1 { s with pending := commandWrites [.crcVal2 d0 d1 c] ++ rest } = .next { s with
      crc := crc8 [d0, d1], matchFlag := decide (crc8 [d0, d1] = c), pending := rest, reply := some .done } :=
  run_command 0 (decode_encode_crcVal2 d0 d1 c) (exec_crcVal2 d0 d1 c s) rest

/-! ### The obligations -/

/-- Settles O14, by the command's equation, its one word and its mask. -/
theorem crcInitZeroesCrc : Obligations.CrcInitZeroesCrc :=
  ⟨exec_crcInit, wordIs_of_exec (by decide) decode_encode_crcInit exec_crcInit, reservedBits_crcInit⟩

/-- Settles O15: the checksum of a frame is what CRC holds after its two bytes, and a byte fed into itself leaves 0x00. -/
theorem crcFeedFeedsOneByte : Obligations.CrcFeedFeedsOneByte := by
  refine ⟨exec_crcFeed, fun a => wordIs_of_exec (encode_crcFeed a) (decode_encode_crcFeed a) (exec_crcFeed a),
    reservedBits_crcFeed, by decide, by decide, crc8Feed_self 0x00, rfl, fun d0 d1 c hc => ?_⟩
  rw [hc, crc8_pair]
  exact crc8Feed_self _

/-- Settles O16: each clause about MATCH is the comparison of the command's own equation at the given CRC. -/
theorem crcCheckComparesAndKeepsCrc : Obligations.CrcCheckComparesAndKeepsCrc := by
  refine ⟨exec_crcCheck, fun c => wordIs_of_exec (encode_crcCheck c) (decode_encode_crcCheck c) (exec_crcCheck c),
    reservedBits_crcCheck, fun c s h0 => ⟨_, exec_crcCheck c s, ?_⟩, fun s hFA => ?_⟩
  · rw [decide_eq_true_iff, h0]
    exact eq_comm
  · rw [exec_crcCheck, exec_crcCheck, hFA]
    exact ⟨rfl, rfl⟩

/-- Settles O17: the three frames are decided by the checksums of their two data bytes. -/
theorem crcVal2ValidatesAFrame : Obligations.CrcVal2ValidatesAFrame :=
  ⟨exec_crcVal2,
    fun a b c => wordIs_of_exec (encode_crcVal2 a b c) (decode_encode_crcVal2 a b c) (exec_crcVal2 a b c),
    reservedBits_crcVal2, exec_crcVal2_of_crc8 (by decide +kernel) 0x00, exec_crcVal2_of_crc8 (by decide +kernel) 0xFF,
    exec_crcVal2_of_crc8 (by decide +kernel) 0xFA⟩

/-- Settles O45: the rounds agree one by one, so eight of them do. -/
theorem nineBitReadingAgrees : Obligations.NineBitReadingAgrees :=
  ⟨nineBitRound_eq_crc8Round, nineBitFeed_eq_crc8Feed⟩

/-- Settles O51: both ways to validate two bytes end in the state of the streaming rule. -/
theorem streamingValidatesAnyPayload : Obligations.StreamingValidatesAnyPayload :=
  ⟨run_validateSequence, fun s d0 d1 c rest =>
    (run_validateSequence s [d0, d1] c rest).trans (run_crcVal2 s d0 d1 c rest).symm⟩

end Sys2Proof.Machine
end

section
/-! PROOFS. The scaler (41_scale.md): the error of `round_f32` and what it is nearest to, the two numerators over their range,
both encodings of them, and the four commands with their words. -/

namespace Sys2Proof.Machine

open Sys2Proof.Claims

/-! ### The magnitude of a rounded quotient -/

section

variable {a d : Nat} (ha : 0 < a) (hd : 0 < d)

include ha hd

/-- Bits [30:0] of a finite result stand for the significand over its quantum exponent, and end in its last bit. -/
theorem roundMagnitude_spec (hfin : roundMagnitude a d < 0x7F800000) :
    magnitudeValue (roundMagnitude a d) = significand a d * 2 ^ quantumExp a d ∧
      roundMagnitude a d % 2 = significand a d % 2 := by
  obtain ⟨hs1, hs2⟩ := significand_range a d ha hd
  have hm : roundMagnitude a d = (quantumExp a d + 149).toNat * 2 ^ 23 + significand a d := by
    unfold roundMagnitude at hfin ⊢
    rw [if_neg ha.ne'] at hfin ⊢
    omega
  rw [hm]
  exact ⟨magnitudeValue_eq _ _ (le_max_right ..) hs1 hs2, by omega⟩

/-- A value under 2^k is counted in steps of at most 2^(k-24). -/
theorem quantumExp_le {k : Int} (hk : -125 ≤ k) (hlt : (a : ℚ) / d < 2 ^ k) : quantumExp a d ≤ k - 24 := by
  have h : floorLog2 a d < k := (zpow_lt_zpow_iff_right₀ one_lt_two).mp ((floorLog2_spec a d ha hd).1.trans_lt hlt)
  unfold quantumExp
  omega

/-- A value of at least 2^k is counted in steps of at least 2^(k-23). -/
theorem le_quantumExp {k : Int} (hle : 2 ^ k ≤ (a : ℚ) / d) : k - 23 ≤ quantumExp a d := by
  have h : k < floorLog2 a d + 1 := (zpow_lt_zpow_iff_right₀ one_lt_two).mp (hle.trans_lt (floorLog2_spec a d ha hd).2)
  unfold quantumExp
  omega

/-- A value under 2^127 rounds to a finite number. -/
theorem roundMagnitude_lt (hlt : (a : ℚ) / d < 2 ^ (127 : Int)) : roundMagnitude a d < 0x7F800000 := by
  have hq := quantumExp_le ha hd (by omega) hlt
  have hs := (significand_range a d ha hd).1
  unfold roundMagnitude
  rw [if_neg ha.ne']
  omega

/-- A value of at least 2^-125 rounds to no subnormal. -/
theorem le_roundMagnitude (hle : 2 ^ (-125 : Int) ≤ (a : ℚ) / d) : 2 ^ 23 ≤ roundMagnitude a d := by
  have hq := le_quantumExp ha hd hle
  have hs := (significand_range a d ha hd).2 (by omega)
  unfold roundMagnitude
  rw [if_neg ha.ne']
  omega

/-- A number of under 24 bits over any exponent is a whole number of the steps of a / d, or lies below a whole number of
them that is at most a / d: the least one with all 24 bits. -/
theorem quantumExp_cases {t e : Int} (ht : |t| < 2 ^ 24) (he : -149 ≤ e) :
    (∃ j : Int, (t : ℚ) * 2 ^ e = j * 2 ^ quantumExp a d) ∨
      ∃ j : Int, (t : ℚ) * 2 ^ e < j * 2 ^ quantumExp a d ∧ j * 2 ^ quantumExp a d ≤ (a : ℚ) / d := by
  obtain hle | hlt := le_or_gt (quantumExp a d) e
  · obtain ⟨i, rfl⟩ := Int.le.dest hle
    refine .inl ⟨t * 2 ^ i, ?_⟩
    rw [zpow_add₀ two_ne_zero, zpow_natCast]
    push_cast
    ring
  · have hpos : (0 : ℚ) < 2 ^ quantumExp a d := by positivity
    have hfull := (quotient_range a d ha hd).2 (by omega)
    have ht' : (t : ℚ) < 2 ^ 24 := by exact_mod_cast (abs_lt.mp ht).2
    refine .inr ⟨2 ^ 23, ?_, by push_cast; exact (le_div_iff₀ hpos).mp hfull⟩
    calc (t : ℚ) * 2 ^ e < 2 ^ 24 * 2 ^ e := by gcongr
      _ ≤ 2 ^ 24 * 2 ^ (quantumExp a d - 1) := by
        gcongr
        · exact one_le_two
        · omega
      _ = (2 ^ 23 : Int) * 2 ^ quantumExp a d := by rw [zpow_sub_one₀ two_ne_zero]; push_cast; ring

end

/-- A distance counted in steps of p. -/
theorem abs_mul_sub_eq {p : ℚ} (hp : 0 < p) (x y : ℚ) : |x * p - y| = |x - y / p| * p := by
  nth_rw 3 [← abs_of_pos hp]
  rw [← abs_mul, sub_mul, div_mul_cancel₀ _ hp.ne']

/-- An integer within a half of z is nearest it, and is a half away if another is as near. -/
theorem abs_sub_le_of_abs_sub_le_half {s : Int} {z : ℚ} (hs : |(s : ℚ) - z| ≤ 1 / 2) (j : Int) :
    |(s : ℚ) - z| ≤ |(j : ℚ) - z| ∧ (|(s : ℚ) - z| = |(j : ℚ) - z| → j ≠ s → |(s : ℚ) - z| = 1 / 2) := by
  obtain rfl | hne := eq_or_ne j s
  · exact ⟨le_rfl, fun _ h => absurd rfl h⟩
  · have hgap : (1 : ℚ) ≤ |(j : ℚ) - s| := by exact_mod_cast Int.one_le_abs (sub_ne_zero.mpr hne)
    have htri : |(j : ℚ) - s| ≤ |(j : ℚ) - z| + |(s : ℚ) - z| := by
      rw [abs_sub_comm (s : ℚ) z]; exact abs_sub_le ..
    exact ⟨by linarith, fun h _ => by linarith⟩

/-- The significand's value is nearest a / d among all numbers of under 24 bits, ties to even (00_scope.md R11). -/
theorem significand_nearest {a d : Nat} (ha : 0 < a) (hd : 0 < d) {t e : Int} (ht : |t| < 2 ^ 24) (he : -149 ≤ e) :
    |(significand a d : ℚ) * 2 ^ quantumExp a d - a / d| ≤ |(t : ℚ) * 2 ^ e - a / d| ∧
      (|(significand a d : ℚ) * 2 ^ quantumExp a d - a / d| = |(t : ℚ) * 2 ^ e - a / d| →
        (t : ℚ) * 2 ^ e ≠ significand a d * 2 ^ quantumExp a d → significand a d % 2 = 0) := by
  have hpos : (0 : ℚ) < 2 ^ quantumExp a d := by positivity
  obtain ⟨hhalf, heven⟩ := significand_spec a d hd
  have hint (j : Int) := abs_sub_le_of_abs_sub_le_half (s := (significand a d : Int)) (by exact_mod_cast hhalf) j
  simp only [Int.cast_natCast] at hint
  obtain ⟨j, hj⟩ | ⟨j, hbelow, hle⟩ := quantumExp_cases ha hd ht he
  · rw [hj, abs_mul_sub_eq hpos, abs_mul_sub_eq hpos]
    refine ⟨mul_le_mul_of_nonneg_right (hint j).1 hpos.le, fun htie hne => heven ((hint j).2 ?_ ?_)⟩
    · exact mul_right_cancel₀ hpos.ne' htie
    · rintro rfl
      exact hne (by push_cast; rfl)
  · have hnear : |(significand a d : ℚ) * 2 ^ quantumExp a d - a / d| < |(t : ℚ) * 2 ^ e - a / d| := by
      calc _ ≤ |(j : ℚ) * 2 ^ quantumExp a d - a / d| := by
            rw [abs_mul_sub_eq hpos, abs_mul_sub_eq hpos]; exact mul_le_mul_of_nonneg_right (hint j).1 hpos.le
        _ = a / d - j * 2 ^ quantumExp a d := by rw [abs_sub_comm, abs_of_nonneg (sub_nonneg.mpr hle)]
        _ < a / d - t * 2 ^ e := by linarith
        _ ≤ |(t : ℚ) * 2 ^ e - a / d| := by rw [abs_sub_comm]; exact le_abs_self _
    exact ⟨hnear.le, fun htie => absurd htie hnear.ne⟩

/-! ### round_f32: its value, its error, and the numbers near it -/

/-- A finite result is the sign of n over the significand of its magnitude (00_scope.md R11). -/
theorem f32ToReal_roundF32 {n : Int} {d : Nat} (hn : n ≠ 0) (hd : 0 < d) (hfin : roundMagnitude n.natAbs d < 0x7F800000) :
    f32ToReal (roundF32 n d) =
      some ((if n < 0 then -1 else 1) * ((significand n.natAbs d : ℚ) * 2 ^ quantumExp n.natAbs d)) := by
  have h := f32ToReal_ofNat (decide (n < 0)) (roundMagnitude n.natAbs d) (by omega)
  have hexp : roundMagnitude n.natAbs d / 2 ^ 23 ≠ 255 := by omega
  rw [if_neg hexp, (roundMagnitude_spec (Int.natAbs_pos.mpr hn) hd hfin).1] at h
  simp only [decide_eq_true_eq] at h
  exact h

/-- The last bit of a finite result is that of the significand. -/
theorem roundF32_getLsbD_zero {n : Int} {d : Nat} (hn : n ≠ 0) (hd : 0 < d)
    (hfin : roundMagnitude n.natAbs d < 0x7F800000) (heven : significand n.natAbs d % 2 = 0) :
    (roundF32 n d).getLsbD 0 = false := by
  have h := (roundMagnitude_spec (Int.natAbs_pos.mpr hn) hd hfin).2
  rw [roundF32, BitVec.getLsbD_ofNat, Nat.testBit_zero, Bool.and_eq_false_iff]
  refine .inr (decide_eq_false ?_)
  split_ifs <;> omega

/-- The magnitude of a quotient is the quotient of the magnitudes. -/
theorem abs_intCast_div (n : Int) (d : Nat) : |(n : ℚ) / d| = (n.natAbs : ℚ) / d := by
  rw [abs_div, Nat.abs_cast, Nat.cast_natAbs, Int.cast_abs]

/-- A quotient is its sign over the quotient of the magnitudes. -/
theorem intCast_div_eq_sign_mul (n : Int) (d : Nat) :
    (n : ℚ) / d = (if n < 0 then -1 else 1) * ((n.natAbs : ℚ) / d) := by
  rw [Nat.cast_natAbs]
  split_ifs with h
  · rw [abs_of_neg h]; push_cast; ring
  · rw [abs_of_nonneg (not_lt.mp h), one_mul]

/-- A sign changes no distance. -/
theorem abs_sign_mul_sub (p : Prop) [Decidable p] (x y : ℚ) :
    |(if p then -1 else 1) * x - (if p then -1 else 1) * y| = |x - y| := by
  rw [← mul_sub, abs_mul]
  split_ifs <;> simp

/-- Rounding a value under 2^k is off by at most half a step of 2^(k-24) (41_scale.md R102). -/
theorem roundF32_error {n : Int} {d : Nat} {k : Int} (hn : n ≠ 0) (hd : 0 < d) (hk : -125 ≤ k ∧ k ≤ 127)
    (hlt : |(n : ℚ) / d| < 2 ^ k) : ∃ v, f32ToReal (roundF32 n d) = some v ∧ |v - (n : ℚ) / d| ≤ 2 ^ (k - 25) := by
  have ha : 0 < n.natAbs := Int.natAbs_pos.mpr hn
  rw [abs_intCast_div] at hlt
  have hfin := roundMagnitude_lt ha hd (hlt.trans_le (zpow_le_zpow_right₀ one_le_two hk.2))
  refine ⟨_, f32ToReal_roundF32 hn hd hfin, ?_⟩
  rw [intCast_div_eq_sign_mul, abs_sign_mul_sub]
  have hpos : (0 : ℚ) < 2 ^ quantumExp n.natAbs d := by positivity
  have hsteps := (significand_spec n.natAbs d hd).1
  calc |(significand n.natAbs d : ℚ) * 2 ^ quantumExp n.natAbs d - n.natAbs / d|
      = |(significand n.natAbs d : ℚ) - n.natAbs / d / 2 ^ quantumExp n.natAbs d| * 2 ^ quantumExp n.natAbs d :=
        abs_mul_sub_eq hpos ..
    _ ≤ 1 / 2 * 2 ^ (k - 24) :=
        mul_le_mul hsteps (zpow_le_zpow_right₀ one_le_two (quantumExp_le ha hd hk.1 hlt)) hpos.le (by norm_num)
    _ = 2 ^ (k - 25) := by rw [show k - 25 = k - 24 - 1 by ring, zpow_sub_one₀ two_ne_zero]; ring

/-- A value between 2^-125 and 2^127 rounds to a normal number (41_scale.md R102). -/
theorem roundF32_isNormal {n : Int} {d : Nat} (hn : n ≠ 0) (hd : 0 < d) (hle : 2 ^ (-125 : Int) ≤ |(n : ℚ) / d|)
    (hlt : |(n : ℚ) / d| < 2 ^ (127 : Int)) : f32IsNormal (roundF32 n d) = true := by
  have ha : 0 < n.natAbs := Int.natAbs_pos.mpr hn
  rw [abs_intCast_div] at hle hlt
  have hlo := le_roundMagnitude ha hd hle
  have hhi := roundMagnitude_lt ha hd hlt
  obtain ⟨-, hexp, -⟩ := f32_fields (decide (n < 0)) (roundMagnitude n.natAbs d) (by omega)
  simp only [decide_eq_true_eq] at hexp
  rw [f32IsNormal, roundF32, hexp]
  simp only [Bool.and_eq_true, decide_eq_true_eq]
  omega

/-- Every value of binary32 is an integer of under 24 bits over a power of two not below 2^-149. -/
theorem f32ToReal_form {w : Word} {v : ℚ} (h : f32ToReal w = some v) :
    ∃ t e : Int, |t| < 2 ^ 24 ∧ -149 ≤ e ∧ v = t * 2 ^ e := by
  rw [word_eq_ofNat w, f32ToReal_ofNat _ _ (Nat.mod_lt _ (by norm_num))] at h
  obtain ⟨t, e, ht, he, hv⟩ := magnitudeValue_form (w.toNat % 2 ^ 31)
  rw [hv] at h
  split at h
  · cases h
  · cases h
    refine ⟨if f32Sign w then -t else t, e, ?_, he, ?_⟩
    · split_ifs <;> simp <;> omega
    · split_ifs <;> push_cast <;> ring

/-- `round_f32` is nearest, ties to even, where the result is finite (00_scope.md R11). -/
theorem roundF32_nearestEven {n : Int} {d : Nat} (hn : n ≠ 0) (hd : 0 < d)
    (hfin : roundMagnitude n.natAbs d < 0x7F800000) : NearestEven (roundF32 n d) ((n : ℚ) / d) := by
  refine ⟨_, f32ToReal_roundF32 hn hd hfin, fun w' v' hw' => ?_⟩
  obtain ⟨t, e, ht, he, rfl⟩ := f32ToReal_form hw'
  have hsign : (t : ℚ) * 2 ^ e = (if n < 0 then -1 else 1) * (((if n < 0 then -t else t) : Int) * 2 ^ e) := by
    split_ifs <;> push_cast <;> ring
  obtain ⟨hle, htie⟩ := significand_nearest (t := if n < 0 then -t else t) (Int.natAbs_pos.mpr hn) hd
    (by split_ifs <;> simpa using ht) he
  rw [intCast_div_eq_sign_mul, hsign, abs_sign_mul_sub, abs_sign_mul_sub]
  exact ⟨hle, fun heq hne => roundF32_getLsbD_zero hn hd hfin (htie heq fun h => hne (by rw [h]))⟩

/-! ### The masked value and the two numerators -/

theorem maskedValue_toNat (raw : Raw) : maskedValue raw = 4 * (raw.toNat / 4) := maskRaw_toNat raw

/-- m is a multiple of 4 up to 65532 (41_scale.md R100). -/
theorem maskedValue_eq_mul (raw : Raw) : ∃ j ≤ 16383, maskedValue raw = 4 * j := by
  have h := raw.isLt
  exact ⟨raw.toNat / 4, by omega, maskedValue_toNat raw⟩

/-- The mask drops the status bits (41_scale.md R108). -/
theorem maskedValue_or_status (raw : Raw) : maskedValue (raw ||| 0x0003) = maskedValue raw := by
  rw [maskedValue, BitVec.and_or_distrib_right, show (0x0003 : Raw) &&& 0xFFFC = 0 by decide]
  exact congrArg BitVec.toNat BitVec.or_zero

theorem tempF32_eq (raw : Raw) : tempF32 raw = encF32 (numT (maskedValue raw)) := rfl

theorem tempFix_eq (raw : Raw) : tempFix raw = encFix (numT (maskedValue raw)) := rfl

theorem humF32_eq (raw : Raw) : humF32 raw = encF32 (numRh (maskedValue raw)) := rfl

theorem humFix_eq (raw : Raw) : humFix raw = encFix (numRh (maskedValue raw)) := rfl

theorem temp_eq (raw : Raw) : temp raw = (numT (maskedValue raw) : ℚ) / scaleDen := by
  simp only [temp, numT, scaleDen]
  push_cast
  ring

theorem hum_eq (raw : Raw) : hum raw = (numRh (maskedValue raw) : ℚ) / scaleDen := by
  simp only [hum, numRh, scaleDen]
  push_cast
  ring

/-- The numerator of the temperature over its range (41_scale.md R103). -/
theorem numT_range (raw : Raw) :
    -307036160 ≤ numT (maskedValue raw) ∧ numT (maskedValue raw) ≤ 844492144 ∧
      18176 ≤ (numT (maskedValue raw)).natAbs := by
  obtain ⟨j, hj, hm⟩ := maskedValue_eq_mul raw
  rw [hm, numT]
  omega

/-- The numerator of the humidity over its range (41_scale.md R103). -/
theorem numRh_range (raw : Raw) :
    -39321600 ≤ numRh (maskedValue raw) ∧ numRh (maskedValue raw) ≤ 779828400 ∧
      21600 ≤ (numRh (maskedValue raw)).natAbs := by
  obtain ⟨j, hj, hm⟩ := maskedValue_eq_mul raw
  rw [hm, numRh]
  omega

/-- The numerators either scaler can meet: not zero, and under 2^8 in the unit of the result (41_scale.md R102). -/
def IsScalerNumerator (n : Int) : Prop := 18176 ≤ n.natAbs ∧ n.natAbs ≤ 844492144

theorem numT_isScalerNumerator (raw : Raw) : IsScalerNumerator (numT (maskedValue raw)) := by
  have h := numT_range raw
  unfold IsScalerNumerator
  omega

theorem numRh_isScalerNumerator (raw : Raw) : IsScalerNumerator (numRh (maskedValue raw)) := by
  have h := numRh_range raw
  unfold IsScalerNumerator
  omega

namespace IsScalerNumerator

variable {n : Int} (h : IsScalerNumerator n)

include h

theorem ne_zero : n ≠ 0 := by
  rintro rfl
  exact absurd h.1 (by decide)

theorem quotient_ne_zero : (n : ℚ) / scaleDen ≠ 0 :=
  div_ne_zero (Int.cast_ne_zero.mpr h.ne_zero) (by norm_num [scaleDen])

theorem abs_quotient_lt : |(n : ℚ) / scaleDen| < 2 ^ (8 : Int) := by
  have hle : (n.natAbs : ℚ) ≤ 844492144 := by exact_mod_cast h.2
  rw [abs_intCast_div, div_lt_iff₀ (by norm_num [scaleDen]),
    show (2 : ℚ) ^ (8 : Int) * scaleDen = 1677721600 by norm_num [scaleDen]]
  linarith

theorem le_abs_quotient : 2 ^ (-10 : Int) ≤ |(n : ℚ) / scaleDen| := by
  have hle : (18176 : ℚ) ≤ n.natAbs := by exact_mod_cast h.1
  rw [abs_intCast_div, le_div_iff₀ (by norm_num [scaleDen]),
    show (2 : ℚ) ^ (-10 : Int) * scaleDen = 6400 by norm_num [scaleDen]]
  linarith

end IsScalerNumerator

/-- The temperature is nearest 0 at m = 17472 (41_scale.md R102). -/
theorem abs_temp_17472_le (raw : Raw) : |temp 17472| ≤ |temp raw| := by
  obtain ⟨-, -, hmin⟩ := numT_range raw
  have hle : (numT (maskedValue 17472)).natAbs ≤ (numT (maskedValue raw)).natAbs := hmin
  rw [temp_eq, temp_eq, abs_intCast_div, abs_intCast_div]
  gcongr

/-- The humidity is nearest 0 at m = 3144 (41_scale.md R102). -/
theorem abs_hum_3144_le (raw : Raw) : |hum 3144| ≤ |hum raw| := by
  obtain ⟨-, -, hmin⟩ := numRh_range raw
  have hle : (numRh (maskedValue 3144)).natAbs ≤ (numRh (maskedValue raw)).natAbs := hmin
  rw [hum_eq, hum_eq, abs_intCast_div, abs_intCast_div]
  gcongr

/-! ### The binary32 encoding -/

/-- The encoded value times the denominator is off the numerator by at most 50, half a step of 2^-16 (41_scale.md R102). -/
theorem encF32_error {n : Int} (h : IsScalerNumerator n) :
    ∃ v, f32ToReal (encF32 n) = some v ∧ |v * scaleDen - n| ≤ 50 := by
  have hden : (0 : ℚ) < scaleDen := by norm_num [scaleDen]
  obtain ⟨v, hv, herr⟩ := roundF32_error h.ne_zero (d := scaleDen) (by decide) ⟨by omega, by omega⟩ h.abs_quotient_lt
  refine ⟨v, hv, ?_⟩
  calc |v * scaleDen - n| = |v - n / scaleDen| * scaleDen := abs_mul_sub_eq hden v n
    _ ≤ 2 ^ (8 - 25 : Int) * scaleDen := by gcongr
    _ = 50 := by norm_num [scaleDen]

/-- Numerators more than 100 apart are told apart by their encodings. -/
theorem encF32_lt {n n' : Int} (h : IsScalerNumerator n) (h' : IsScalerNumerator n') (hgap : n + 100 < n') :
    ∃ v v', f32ToReal (encF32 n) = some v ∧ f32ToReal (encF32 n') = some v' ∧ v < v' := by
  obtain ⟨v, hv, herr⟩ := encF32_error h
  obtain ⟨v', hv', herr'⟩ := encF32_error h'
  have hden : (0 : ℚ) < scaleDen := by norm_num [scaleDen]
  have hgapq : (n : ℚ) + 100 < n' := by exact_mod_cast hgap
  refine ⟨v, v', hv, hv', lt_of_mul_lt_mul_right ?_ hden.le⟩
  linarith [(abs_le.mp herr).2, (abs_le.mp herr').1]

theorem encF32_nearestEven {n : Int} (h : IsScalerNumerator n) : NearestEven (encF32 n) ((n : ℚ) / scaleDen) := by
  have hlt : (n.natAbs : ℚ) / scaleDen < 2 ^ (127 : Int) := by
    rw [← abs_intCast_div]
    exact h.abs_quotient_lt.trans (zpow_lt_zpow_right₀ one_lt_two (by omega))
  exact roundF32_nearestEven h.ne_zero (by decide) (roundMagnitude_lt (Int.natAbs_pos.mpr h.ne_zero) (by decide) hlt)

theorem encF32_isNormal {n : Int} (h : IsScalerNumerator n) : f32IsNormal (encF32 n) = true :=
  roundF32_isNormal h.ne_zero (by decide) ((zpow_le_zpow_right₀ one_le_two (by omega)).trans h.le_abs_quotient)
    (h.abs_quotient_lt.trans (zpow_lt_zpow_right₀ one_lt_two (by omega)))

/-- A step of m by 4 is a step of the temperature's numerator by 70288 (41_scale.md R104). -/
theorem tempF32_strictlyIncreasing : StrictlyIncreasingF32 tempF32 := by
  intro r r' hlt
  obtain ⟨j, -, hm⟩ := maskedValue_eq_mul r
  obtain ⟨j', -, hm'⟩ := maskedValue_eq_mul r'
  refine encF32_lt (numT_isScalerNumerator r) (numT_isScalerNumerator r') ?_
  omega

/-- A step of m by 4 is a step of the humidity's numerator by 50000 (41_scale.md R106). -/
theorem humF32_strictlyIncreasing : StrictlyIncreasingF32 humF32 := by
  intro r r' hlt
  obtain ⟨j, -, hm⟩ := maskedValue_eq_mul r
  obtain ⟨j', -, hm'⟩ := maskedValue_eq_mul r'
  refine encF32_lt (numRh_isScalerNumerator r) (numRh_isScalerNumerator r') ?_
  omega

/-- The encoded humidity is on the side of 0 and of 100 that m says: at 3144, 3148, 55572 and 55576 the numerator is far
enough from both (41_scale.md R106). -/
theorem humF32_signs (raw : Raw) : ∃ v, f32ToReal (humF32 raw) = some v ∧
    (v < 0 ↔ maskedValue raw ≤ 3144) ∧ (100 < v ↔ 55576 ≤ maskedValue raw) := by
  obtain ⟨v, hv, herr⟩ := encF32_error (numRh_isScalerNumerator raw)
  obtain ⟨hlo, hhi⟩ := abs_le.mp herr
  obtain ⟨j, -, hm⟩ := maskedValue_eq_mul raw
  rw [hm] at hlo hhi ⊢
  simp only [numRh, scaleDen] at hlo hhi
  push_cast at hlo hhi
  refine ⟨v, hv, ⟨fun hv0 => ?_, fun hle => ?_⟩, ⟨fun hv100 => ?_, fun hle => ?_⟩⟩
  · have : (j : ℚ) < 787 := by linarith
    have : j < 787 := by exact_mod_cast this
    omega
  · have : (j : ℚ) ≤ 786 := by exact_mod_cast (by omega : j ≤ 786)
    linarith
  · have : (13893 : ℚ) < j := by linarith
    have : 13893 < j := by exact_mod_cast this
    omega
  · have : (13894 : ℚ) ≤ j := by exact_mod_cast (by omega : 13894 ≤ j)
    linarith

/-! ### The fixed-point encoding -/

section

variable {n : Int} (h : IsScalerNumerator n)

include h

theorem encFix_eq_div : (encFix n).toInt = (n + 32768) / 65536 := by
  obtain ⟨-, hle⟩ := h
  exact encFix_toInt n (by omega) (by omega)

/-- The fixed-point result is the floor of 100 V + 1/2 (41_scale.md R103). -/
theorem encFix_eq_floor : (encFix n).toInt = ⌊100 * ((n : ℚ) / scaleDen) + 1 / 2⌋ := by
  have hq : 100 * ((n : ℚ) / scaleDen) + 1 / 2 = ((n + 32768 : Int) : ℚ) / (65536 : Nat) := by
    simp only [scaleDen]
    push_cast
    ring
  rw [encFix_eq_div h, hq, Rat.floor_intCast_div_natCast]
  rfl

/-- What the floor cuts off is the remainder of N + 32768, so the result is off 100 V by 1/2 less that (41_scale.md R103). -/
theorem encFix_error : ((encFix n).toInt : ℚ) - 100 * ((n : ℚ) / scaleDen) =
    1 / 2 - ((n + 32768) % 65536 : Int) / 65536 := by
  have hdiv : (65536 : ℚ) * ((n + 32768) / 65536 : Int) + ((n + 32768) % 65536 : Int) = n + 32768 := by
    exact_mod_cast Int.mul_ediv_add_emod (n + 32768) 65536
  rw [encFix_eq_div h]
  simp only [scaleDen]
  push_cast
  linarith

theorem abs_encFix_error_le : |((encFix n).toInt : ℚ) - 100 * ((n : ℚ) / scaleDen)| ≤ 1 / 2 := by
  have h0 : (0 : ℚ) ≤ ((n + 32768) % 65536 : Int) := by exact_mod_cast Int.emod_nonneg _ (by decide)
  have h1 : (((n + 32768) % 65536 : Int) : ℚ) ≤ 65536 := by exact_mod_cast (Int.emod_lt_of_pos _ (by decide)).le
  rw [encFix_error h, abs_le]
  constructor <;> linarith

/-- A tie is a numerator half a centi-unit below a whole one. -/
theorem encFix_tie_iff :
    ((encFix n).toInt : ℚ) - 100 * ((n : ℚ) / scaleDen) = 1 / 2 ↔ (n + 32768) % 65536 = 0 := by
  rw [encFix_error h, sub_eq_self, div_eq_zero_iff]
  norm_num

end

/-- A centi-unit is 65536, and an odd number times 16 is added a step: only half way through a cycle of 4096 steps is the
numerator half a centi-unit below a whole one. -/
theorem tie_iff_step (c b j : Int) :
    (c * 65536 + 16 * (2 * b + 1) * j + 32768) % 65536 = 0 ↔ j % 4096 = 2048 := by
  have hcoprime : IsCoprime (4096 : Int) (2 * b + 1) := by
    have h2 : IsCoprime (2 : Int) (2 * b + 1) := ⟨-b, 1, by ring⟩
    exact h2.pow_left (m := 12)
  have hhalf : (4096 : Int) ∣ (2 * b + 1) * (j + 2048) ↔ 4096 ∣ j + 2048 :=
    ⟨hcoprime.dvd_of_dvd_mul_left, fun h => dvd_mul_of_dvd_right h _⟩
  rw [show c * 65536 + 16 * (2 * b + 1) * j + 32768 = 16 * ((2 * b + 1) * (j + 2048)) + 65536 * (c - b) by ring]
  generalize (2 * b + 1) * (j + 2048) = y at hhalf ⊢
  omega

/-- The steps half way through a cycle are four values of m (41_scale.md R103). -/
theorem step_mod_iff_mem {j : Nat} (hj : j ≤ 16383) :
    (j : Int) % 4096 = 2048 ↔ 4 * j ∈ [8192, 24576, 40960, 57344] := by
  simp only [List.mem_cons, List.not_mem_nil, or_false]
  omega

theorem numT_tie_iff (raw : Raw) :
    (numT (maskedValue raw) + 32768) % 65536 = 0 ↔ maskedValue raw ∈ [8192, 24576, 40960, 57344] := by
  obtain ⟨j, hj, hm⟩ := maskedValue_eq_mul raw
  have hnum : numT (4 * j : Nat) = -4685 * 65536 + 16 * (2 * 2196 + 1) * j := by rw [numT]; push_cast; ring
  rw [hm, hnum, tie_iff_step, step_mod_iff_mem hj]

theorem numRh_tie_iff (raw : Raw) :
    (numRh (maskedValue raw) + 32768) % 65536 = 0 ↔ maskedValue raw ∈ [8192, 24576, 40960, 57344] := by
  obtain ⟨j, hj, hm⟩ := maskedValue_eq_mul raw
  have hnum : numRh (4 * j : Nat) = -600 * 65536 + 16 * (2 * 1562 + 1) * j := by rw [numRh]; push_cast; ring
  rw [hm, hnum, tie_iff_step, step_mod_iff_mem hj]

theorem tempFix_toInt (raw : Raw) : (tempFix raw).toInt = (numT (maskedValue raw) + 32768) / 65536 := by
  rw [tempFix_eq, encFix_eq_div (numT_isScalerNumerator raw)]

theorem humFix_toInt (raw : Raw) : (humFix raw).toInt = (numRh (maskedValue raw) + 32768) / 65536 := by
  rw [humFix_eq, encFix_eq_div (numRh_isScalerNumerator raw)]

theorem tempFix_toInt_range (raw : Raw) : -4685 ≤ (tempFix raw).toInt ∧ (tempFix raw).toInt ≤ 12886 := by
  obtain ⟨hlo, hhi, -⟩ := numT_range raw
  rw [tempFix_toInt]
  omega

theorem humFix_toInt_range (raw : Raw) : -600 ≤ (humFix raw).toInt ∧ (humFix raw).toInt ≤ 11899 := by
  obtain ⟨hlo, hhi, -⟩ := numRh_range raw
  rw [humFix_toInt]
  omega

/-- A step of m by 4 adds more than a whole centi-degree (41_scale.md R105). -/
theorem tempFix_toInt_lt {r r' : Raw} (hlt : maskedValue r < maskedValue r') : (tempFix r).toInt < (tempFix r').toInt := by
  obtain ⟨j, -, hm⟩ := maskedValue_eq_mul r
  obtain ⟨j', -, hm'⟩ := maskedValue_eq_mul r'
  rw [tempFix_toInt, tempFix_toInt, numT, numT]
  omega

theorem humFix_toInt_le {r r' : Raw} (hle : maskedValue r ≤ maskedValue r') : (humFix r).toInt ≤ (humFix r').toInt := by
  rw [humFix_toInt, humFix_toInt, numRh, numRh]
  omega

/-! ### What the four commands do, and their words -/

theorem exec_scaleTF32 (raw : Raw) (s : State) : exec (.scaleTF32 raw) s = .next { s with res := tempF32 raw } := rfl

theorem exec_scaleTFix (raw : Raw) (s : State) : exec (.scaleTFix raw) s = .next { s with res := tempFix raw } := rfl

theorem exec_scaleRhF32 (raw : Raw) (s : State) : exec (.scaleRhF32 raw) s = .next { s with res := humF32 raw } := rfl

theorem exec_scaleRhFix (raw : Raw) (s : State) : exec (.scaleRhFix raw) s = .next { s with res := humFix raw } := rfl

/-- RAW shifted into place fills fields A and B with its two bytes (30_encoding.md R63). -/
theorem packW_or_raw (op : BitVec 4) (f : BitVec 1) (raw : Raw) :
    packW op 0 f 0 0 0 ||| (raw.zeroExtend 32 <<< 8) = packW op 0 f (raw.extractLsb' 8 8) (raw.extractLsb' 0 8) 0 := by
  have hsplit : raw.zeroExtend 32 <<< 8 =
      (raw.extractLsb' 8 8).zeroExtend 32 <<< 16 ||| (raw.extractLsb' 0 8).zeroExtend 32 <<< 8 := by
    apply BitVec.eq_of_getLsbD_eq
    intro i hi
    simp only [BitVec.zeroExtend, BitVec.getLsbD_or, BitVec.getLsbD_shiftLeft, BitVec.getLsbD_setWidth,
      BitVec.getLsbD_extractLsb']
    grind
  rw [hsplit, packW_or_data]

theorem encode_scaleTF32 (raw : Raw) : encode (.scaleTF32 raw) = rawWord 0x50000000 raw := (packW_or_raw 0x5 0 raw).symm

theorem encode_scaleTFix (raw : Raw) : encode (.scaleTFix raw) = rawWord 0x51000000 raw := (packW_or_raw 0x5 1 raw).symm

theorem encode_scaleRhF32 (raw : Raw) : encode (.scaleRhF32 raw) = rawWord 0x60000000 raw := (packW_or_raw 0x6 0 raw).symm

theorem encode_scaleRhFix (raw : Raw) : encode (.scaleRhFix raw) = rawWord 0x61000000 raw := (packW_or_raw 0x6 1 raw).symm

/-- The two bytes of RAW combine to RAW (20_memory.md R46). -/
theorem combine_halves (raw : Raw) : combine (raw.extractLsb' 8 8) (raw.extractLsb' 0 8) = raw := by
  rw [combine_eq_append, raw_halves]

theorem decode_encode_scaleTF32 (raw : Raw) : decode (encode (.scaleTF32 raw)) = .command (.scaleTF32 raw) := by
  rw [encode, decode_packW_scaleT, combine_halves]
  rfl

theorem decode_encode_scaleTFix (raw : Raw) : decode (encode (.scaleTFix raw)) = .command (.scaleTFix raw) := by
  rw [encode, decode_packW_scaleT, combine_halves]
  rfl

theorem decode_encode_scaleRhF32 (raw : Raw) : decode (encode (.scaleRhF32 raw)) = .command (.scaleRhF32 raw) := by
  rw [encode, decode_packW_scaleRh, combine_halves]
  rfl

theorem decode_encode_scaleRhFix (raw : Raw) : decode (encode (.scaleRhFix raw)) = .command (.scaleRhFix raw) := by
  rw [encode, decode_packW_scaleRh, combine_halves]
  rfl

theorem reservedBits_scaleT : ReservedBits 0x5 0x0E0000FF := fun w hop hbits =>
  wordErrs_reservedField ((decode_of_mask (and_0x0E0000FF_eq_zero_iff w) (decode_op5 w hop)).1 hbits)

theorem reservedBits_scaleRh : ReservedBits 0x6 0x0E0000FF := fun w hop hbits =>
  wordErrs_reservedField ((decode_of_mask (and_0x0E0000FF_eq_zero_iff w) (decode_op6 w hop)).1 hbits)

/-! ### The ends of the range -/

theorem maskedValue_eq_zero {raw : Raw} (h : raw.toNat ≤ 3) : maskedValue raw = 0 := by
  rw [maskedValue_toNat]
  omega

theorem maskedValue_eq_65532 {raw : Raw} (h : 0xFFFC ≤ raw.toNat) : maskedValue raw = 65532 := by
  have := raw.isLt
  rw [maskedValue_toNat]
  omega

theorem tempF32_of_le_three {raw : Raw} (h : raw.toNat ≤ 3) : tempF32 raw = 0xC23B6666 := by
  rw [tempF32_eq, maskedValue_eq_zero h]
  decide +kernel

theorem tempF32_of_0xFFFC_le {raw : Raw} (h : 0xFFFC ≤ raw.toNat) : tempF32 raw = 0x4300DBF9 := by
  rw [tempF32_eq, maskedValue_eq_65532 h]
  decide +kernel

theorem humF32_of_le_three {raw : Raw} (h : raw.toNat ≤ 3) : humF32 raw = 0xC0C00000 := by
  rw [humF32_eq, maskedValue_eq_zero h]
  decide +kernel

/-- The floor of the temperature's formula (41_scale.md R109). -/
theorem temp_of_le_three {raw : Raw} (h : raw.toNat ≤ 3) : temp raw = -46.85 := by
  rw [temp, maskedValue_eq_zero h]
  norm_num

/-- The floor of the humidity's formula (41_scale.md R109). -/
theorem hum_of_le_three {raw : Raw} (h : raw.toNat ≤ 3) : hum raw = -6 := by
  rw [hum, maskedValue_eq_zero h]
  norm_num

/-- The encoded temperature is off by at most half a unit in the last place of a number under 2^k (41_scale.md R110). -/
theorem tempF32_error (raw : Raw) {k : Int} (hk : -125 ≤ k ∧ k ≤ 127) (hlt : |temp raw| < 2 ^ k) :
    ∃ v, f32ToReal (tempF32 raw) = some v ∧ |v - temp raw| ≤ 2 ^ (k - 25) := by
  rw [temp_eq] at hlt ⊢
  exact roundF32_error (numT_isScalerNumerator raw).ne_zero (by decide) hk hlt

/-- The encoded humidity is off by at most half a unit in the last place of a number under 2^k (41_scale.md R110). -/
theorem humF32_error (raw : Raw) {k : Int} (hk : -125 ≤ k ∧ k ≤ 127) (hlt : |hum raw| < 2 ^ k) :
    ∃ v, f32ToReal (humF32 raw) = some v ∧ |v - hum raw| ≤ 2 ^ (k - 25) := by
  rw [hum_eq] at hlt ⊢
  exact roundF32_error (numRh_isScalerNumerator raw).ne_zero (by decide) hk hlt

/-! ### The obligations -/

/-- Settles O18: the corner cases are values of `round_f32` at their m, and steps of m are far wider than its error. -/
theorem scaleTF32WritesTheRoundedTemperature : Obligations.ScaleTF32WritesTheRoundedTemperature :=
  ⟨exec_scaleTF32,
    fun raw => wordIs_of_exec (encode_scaleTF32 raw) (decode_encode_scaleTF32 raw) (exec_scaleTF32 raw),
    fun w hop _ hbits => reservedBits_scaleT w hop hbits, fun _ => tempF32_of_le_three, fun _ => tempF32_of_0xFFFC_le,
    by decide +kernel, by decide +kernel, by decide, by decide +kernel, tempF32_strictlyIncreasing⟩

/-- Settles O19: the corner cases are computed, and a step of m is more than a centi-degree. -/
theorem scaleTFixWritesCentiDegrees : Obligations.ScaleTFixWritesCentiDegrees :=
  ⟨exec_scaleTFix,
    fun raw => wordIs_of_exec (encode_scaleTFix raw) (decode_encode_scaleTFix raw) (exec_scaleTFix raw),
    fun w hop _ hbits => reservedBits_scaleT w hop hbits, by decide, by decide, by decide, by decide, by decide, by decide,
    by decide, by decide, by decide, by decide, fun _ _ => tempFix_toInt_lt⟩

/-- Settles O20: the corner cases are computed, and the two bounds lie between values of m that the error cannot move over
them. -/
theorem scaleRhF32WritesTheRoundedHumidity : Obligations.ScaleRhF32WritesTheRoundedHumidity :=
  ⟨exec_scaleRhF32,
    fun raw => wordIs_of_exec (encode_scaleRhF32 raw) (decode_encode_scaleRhF32 raw) (exec_scaleRhF32 raw),
    fun w hop _ hbits => reservedBits_scaleRh w hop hbits, by decide +kernel, by decide +kernel, by decide +kernel,
    by decide +kernel, by decide +kernel, by decide +kernel, humF32_signs, rfl, humF32_strictlyIncreasing⟩

/-- Settles O21: the corner cases are computed, and the floor of the quotient keeps the order of the numerators. -/
theorem scaleRhFixWritesCentiPercent : Obligations.ScaleRhFixWritesCentiPercent :=
  ⟨exec_scaleRhFix,
    fun raw => wordIs_of_exec (encode_scaleRhFix raw) (decode_encode_scaleRhFix raw) (exec_scaleRhFix raw),
    fun w hop _ hbits => reservedBits_scaleRh w hop hbits, by decide, by decide, by decide, by decide, by decide, by decide,
    by decide, by decide, by decide, by decide, fun _ _ => humFix_toInt_le⟩

/-- Settles O52: each command takes RAW through m alone, and m has no status bits. -/
theorem statusBitsDoNotInfluenceTheResult : Obligations.StatusBitsDoNotInfluenceTheResult := by
  intro raw s
  simp only [exec_scaleTF32, exec_scaleTFix, exec_scaleRhF32, exec_scaleRhFix, tempF32_eq, tempFix_eq, humF32_eq, humFix_eq,
    maskedValue_or_status]
  exact ⟨⟨_, rfl, rfl⟩, ⟨_, rfl, rfl⟩, ⟨_, rfl, rfl⟩, ⟨_, rfl, rfl⟩⟩

/-- Settles O55: the result is the floor of N + 32768 over 65536, which is 100 V + 1/2, and a tie leaves no remainder. -/
theorem fixedPointRoundsToTheNearestCentiUnit : Obligations.FixedPointRoundsToTheNearestCentiUnit := by
  intro raw
  have hT := numT_isScalerNumerator raw
  have hRh := numRh_isScalerNumerator raw
  obtain ⟨hTlo, hThi, -⟩ := numT_range raw
  obtain ⟨hRhlo, hRhhi, -⟩ := numRh_range raw
  obtain ⟨htlo, hthi⟩ := tempFix_toInt_range raw
  obtain ⟨hhlo, hhhi⟩ := humFix_toInt_range raw
  rw [temp_eq, hum_eq]
  exact ⟨tempFix_toInt raw, encFix_eq_floor hT, humFix_toInt raw, encFix_eq_floor hRh,
    add_le_add_left hTlo 32768, add_le_add_left hThi 32768, add_le_add_left hRhlo 32768, add_le_add_left hRhhi 32768,
    htlo, hthi, hhlo, hhhi, abs_encFix_error_le hT, abs_encFix_error_le hRh,
    (encFix_tie_iff hT).trans (numT_tie_iff raw), (encFix_tie_iff hRh).trans (numRh_tie_iff raw)⟩

/-- Settles O56, from the rounding of any numerator in the scaler's range. -/
theorem binaryResultIsTheNearestNormalNumber : Obligations.BinaryResultIsTheNearestNormalNumber := by
  intro raw
  have hT := numT_isScalerNumerator raw
  have hRh := numRh_isScalerNumerator raw
  refine ⟨?_, ?_, ?_, ?_, encF32_isNormal hT, encF32_isNormal hRh, abs_temp_17472_le raw, abs_hum_3144_le raw⟩
  · rw [temp_eq]; exact encF32_nearestEven hT
  · rw [hum_eq]; exact encF32_nearestEven hRh
  · rw [temp_eq]; exact hT.quotient_ne_zero
  · rw [hum_eq]; exact hRh.quotient_ne_zero

/-- Settles O53: the sentinel is masked to m = 0. -/
theorem sentinelConvertsToTheFloor : Obligations.SentinelConvertsToTheFloor := by
  intro s
  have h : (0x0001 : Raw).toNat ≤ 3 := by decide
  refine ⟨?_, ?_, ?_, ?_, temp_of_le_three h, hum_of_le_three h⟩
  · rw [exec_scaleTF32, tempF32_of_le_three h]
  · rw [exec_scaleTFix, show tempFix 0x0001 = BitVec.ofInt 32 (-4685) by decide]
  · rw [exec_scaleRhF32, humF32_of_le_three h]
  · rw [exec_scaleRhFix, show humFix 0x0001 = BitVec.ofInt 32 (-600) by decide]

/-- Settles O54: 46.85, 118.99 and 128.86 are under 2^6, 2^7 and 2^8, which gives the unit in the last place of each. -/
theorem boundsAtTheEndsOfTheRange : Obligations.BoundsAtTheEndsOfTheRange := by
  have htemp0 : temp 0 = -46.85 := temp_of_le_three (by decide)
  have hmax : maskedValue 65535 = 65532 := maskedValue_eq_65532 (by decide)
  have htemp : temp 65535 = -46.85 + 175.72 * 65532 / 65536 := by rw [temp, hmax]; norm_num
  have hhum : hum 65535 = -6 + 125 * 65532 / 65536 := by rw [hum, hmax]; norm_num
  refine ⟨?_, ?_, hmax, ?_, ?_⟩
  · obtain ⟨v, hv, herr⟩ := tempF32_error 0 (k := 6) (by omega) (by rw [htemp0]; norm_num [abs_of_neg])
    rw [htemp0] at herr
    exact ⟨v, hv, herr.trans (by norm_num)⟩
  · rw [humF32_of_le_three (by decide)]
    decide +kernel
  · have hnear : |temp 65535 - 128.86| < 0.004 := by rw [htemp]; norm_num [abs_of_pos]
    obtain ⟨v, hv, herr⟩ := tempF32_error 65535 (k := 8) (by omega) (by rw [htemp]; norm_num [abs_of_pos])
    have herr17 : |v - temp 65535| ≤ 1 / 2 ^ 17 := herr.trans (by norm_num)
    exact ⟨v, hv, herr17, (abs_sub_le v (temp 65535) 128.86).trans_lt (by linarith)⟩
  · have hnear : |hum 65535 - 118.99237| < 0.000001 := by rw [hhum]; norm_num [abs_of_pos]
    obtain ⟨v, hv, herr⟩ := humF32_error 65535 (k := 7) (by omega) (by rw [hhum]; norm_num [abs_of_pos])
    have herr18 : |v - hum 65535| ≤ 1 / 2 ^ 18 := herr.trans (by norm_num)
    exact ⟨v, hv, herr18, (abs_sub_le v (hum 65535) 118.99237).trans_lt (by linarith)⟩

end Sys2Proof.Machine
end

section
/-! PROOFS. The control commands (42_control.md): what nop and clr.status do, their words, and what clearing the flags leaves
to the STATUS view and to the next command error. -/

namespace Sys2Proof.Machine

open Sys2Proof.Claims

/-! ### What the two commands do -/

theorem exec_nop (s : State) : exec .nop s = .next s := rfl

theorem exec_clrStatus (s : State) :
    exec .clrStatus s = .next { s with matchFlag := false, err := false, ecause := 0x0 } := rfl

/-- clr.status where the flags are clear already (42_control.md R121). -/
theorem exec_clrStatus_of_clear {s : State} (hM : s.matchFlag = false) (hE : s.err = false) (hC : s.ecause = 0x0) :
    exec .clrStatus s = .next s := by
  cases s
  cases hM
  cases hE
  cases hC
  rfl

/-! ### Their words -/

theorem decode_encode_nop : decode (encode .nop) = .command .nop := by decide

theorem decode_encode_clrStatus : decode (encode .clrStatus) = .command .clrStatus := by decide

theorem reservedBits_nop : ReservedBits 0x0 0x0FFFFFFF := fun w hop hbits =>
  wordErrs_reservedField ((decode_of_mask (and_0x0FFFFFFF_eq_zero_iff w) (decode_op0 w hop)).1 hbits)

theorem reservedBits_clrStatus : ReservedBits 0x7 0x0FFFFFFF := fun w hop hbits =>
  wordErrs_reservedField ((decode_of_mask (and_0x0FFFFFFF_eq_zero_iff w) (decode_op7 w hop)).1 hbits)

/-! ### What clear flags mean for STATUS and for the next command error -/

/-- STATUS reads 0 where MATCH, ERR and ECAUSE are clear (10_state.md R28). -/
theorem viewWord_status_of_clear {s : State} (hM : s.matchFlag = false) (hE : s.err = false) (hC : s.ecause = 0x0) :
    viewWord .status s = 0x00000000 := by
  rw [viewWord, statusWord, hM, hE, hC]
  decide

/-- A command error where ERR is clear records its cause (60_exceptions.md R131). -/
theorem step_error_of_err_clear {s : State} {w : Word} {cause : CmdCause} (hd : decode w = .cmdError cause)
    (hE : s.err = false) : ∃ u, step (s.withCommand w) = .next u ∧ u.ecause = cause.code := by
  have hstep : step (s.withCommand w) = .next _ := runCommandWord_error hd s
  obtain ⟨-, hcause⟩ := error_recorded hstep ⟨w, s.pending, rfl, hd⟩
  rw [withCommand_err, hE] at hcause
  exact ⟨_, hstep, hcause⟩

/-! ### The obligations -/

/-- Settles O13, by the command's equation, its one word and its mask. -/
theorem nopWritesNothing : Obligations.NopWritesNothing :=
  ⟨exec_nop, wordIs_of_exec rfl decode_encode_nop exec_nop, reservedBits_nop⟩

/-- Settles O22: the state clr.status leaves has ERR clear, which lets the next error record its cause, and STATUS 0. -/
theorem clrStatusClearsTheFlags : Obligations.ClrStatusClearsTheFlags := by
  refine ⟨exec_clrStatus, wordIs_of_exec rfl decode_encode_clrStatus exec_clrStatus, reservedBits_clrStatus,
    fun s => exec_clrStatus_of_clear, fun s w cause hd => ?_, fun s _ => ?_⟩
  · obtain ⟨u, hu, hcause⟩ := step_error_of_err_clear (s := { s with matchFlag := false, err := false, ecause := 0x0 }) hd rfl
    exact ⟨_, u, exec_clrStatus s, hu, hcause⟩
  · exact ⟨_, exec_clrStatus s, viewWord_status_of_clear rfl rfl rfl⟩

end Sys2Proof.Machine
end

section
/-! PROOFS. Command errors (60_exceptions.md): which words raise one, what it records, and that no command but clr.status
touches what was recorded. -/

namespace Sys2Proof.Machine

open Sys2Proof.Claims

/-- A step on the write of any command but clr.status completes and keeps ERR and ECAUSE (10_state.md R26, R27). -/
theorem step_command_keeps_error {w : Word} {i : Instr} (hd : decode w = .command i) (hi : i ≠ .clrStatus) (s : State) :
    ∃ t, step (s.withCommand w) = .next t ∧ t.err = s.err ∧ t.ecause = s.ecause := by
  obtain ⟨u, hu, -⟩ := exec_completes i s
  have hstep : step (s.withCommand w) = .next (answer .done u) := by
    rw [step_withCommand, runCommandWord_command hd, hu]
    rfl
  exact ⟨_, hstep, exec_keeps_error i s u hu hi⟩

/-! ### The obligations -/

/-- Settles O24: the reserved opcodes, the mask of each defined opcode, and what a command leaves of ERR and ECAUSE. -/
theorem commandErrorsAreRecordedAndDoNothingElse : Obligations.CommandErrorsAreRecordedAndDoNothingElse :=
  ⟨fun _ h8 => wordErrs_reservedOp h8, reservedBits_nop, reservedBits_crcInit, reservedBits_crcFeed, reservedBits_crcCheck,
    reservedBits_crcVal2, reservedBits_scaleT, reservedBits_scaleRh, reservedBits_clrStatus,
    fun _ _ s hd hi => step_command_keeps_error hd hi s⟩

end Sys2Proof.Machine
end

section
/-! PROOFS. Block reset (70_reset_and_hazards.md): the step that the platform's reset input causes. -/

namespace Sys2Proof.Machine

/-- A step on a block reset is the reset, in every state: nothing of the state gates it (70_reset_and_hazards.md R152). -/
theorem step_withReset (s : State) : step (s.withEvent .reset) = .next (blockReset s) := by
  rw [step_withEvent, performEvent]

/-- A block reset written out field by field: of the old state only what the host does next is in it
(70_reset_and_hazards.md R150). -/
theorem blockReset_eq (s : State) :
    blockReset s =
      { crc := 0x00, res := 0x00000000, matchFlag := false, err := false, ecause := 0x0, pending := s.pending, reply := none } := by
  rw [blockReset, State.reset]

/-! ### The obligations -/

/-- Settles O2: the step is the block reset, and the block reset takes every item from the reset state. -/
theorem resetSetsEveryItemFromAnyState : Obligations.ResetSetsEveryItemFromAnyState := by
  intro s
  rw [step_withReset, blockReset_eq]

end Sys2Proof.Machine
end

section
/-! PROOFS. Decoder and encoder as inverses (30_encoding.md): each command has exactly one word, what that word is as a masked
word and as a number, and the assembler's lines. -/

namespace Sys2Proof.Machine

open Sys2Proof.Claims

/-! ### A command read back from its word -/

theorem decode_encode (i : Instr) : decode (encode i) = .command i := by
  cases i with
  | nop => exact decode_encode_nop
  | crcInit => exact decode_encode_crcInit
  | crcFeed a => exact decode_encode_crcFeed a
  | crcCheck c => exact decode_encode_crcCheck c
  | crcVal2 a b c => exact decode_encode_crcVal2 a b c
  | scaleTF32 raw => exact decode_encode_scaleTF32 raw
  | scaleTFix raw => exact decode_encode_scaleTFix raw
  | scaleRhF32 raw => exact decode_encode_scaleRhF32 raw
  | scaleRhFix raw => exact decode_encode_scaleRhFix raw
  | clrStatus => exact decode_encode_clrStatus

/-! ### A word read back from its command -/

/-- Field A is the high byte of RAW (30_encoding.md R63). -/
theorem fieldRaw_high (w : Word) : (fieldRaw w).extractLsb' 8 8 = fieldA w := by
  apply BitVec.eq_of_getLsbD_eq
  intro i hi
  simp [fieldRaw, fieldA, hi, ← Nat.add_assoc]
  omega

/-- Field B is the low byte of RAW (30_encoding.md R63). -/
theorem fieldRaw_low (w : Word) : (fieldRaw w).extractLsb' 0 8 = fieldB w := by
  apply BitVec.eq_of_getLsbD_eq
  intro i hi
  simp [fieldRaw, fieldB, hi]
  omega

/-- A bit that is not zero is one. -/
theorem fieldF_eq_one {w : Word} (h : fieldF w ≠ 0) : fieldF w = 1 := by
  generalize fieldF w = f at h ⊢
  revert f
  decide

/-- A word is format W put together from what its fields are (30_encoding.md R60). -/
theorem packW_eq_of_fields {w : Word} {op : BitVec 4} {rsv : BitVec 3} {f : BitVec 1} {a b c : Byte} (hop : fieldOp w = op)
    (hrsv : fieldRsv w = rsv) (hf : fieldF w = f) (ha : fieldA w = a) (hb : fieldB w = b) (hc : fieldC w = c) :
    packW op rsv f a b c = w := by
  subst hop hrsv hf ha hb hc
  exact packW_fields w

/-- A checked answer that is a command passed its check. -/
theorem checked_eq_command {P : Prop} [Decidable P] {d : Decoded} {cause : CmdCause} {i : Instr}
    (h : (if P then d else .cmdError cause) = .command i) : P ∧ d = .command i := by
  split_ifs at h with hP
  exact ⟨hP, h⟩

/-- For each opcode the fields that the decoder checks are zero, and the others are the operands of the command
(30_encoding.md R64, R65). -/
theorem encode_of_decode {w : Word} {i : Instr} (h : decode w = .command i) : encode i = w := by
  obtain hop | hop | hop | hop | hop | hop | hop | hop | hop := fieldOp_cases w
  · obtain ⟨⟨hRsv, hF, hA, hB, hC⟩, ⟨⟩⟩ := checked_eq_command ((decode_op0 w hop).symm.trans h)
    exact packW_eq_of_fields hop hRsv hF hA hB hC
  · obtain ⟨⟨hRsv, hF, hA, hB, hC⟩, ⟨⟩⟩ := checked_eq_command ((decode_op1 w hop).symm.trans h)
    exact packW_eq_of_fields hop hRsv hF hA hB hC
  · obtain ⟨⟨hRsv, hF, hB, hC⟩, ⟨⟩⟩ := checked_eq_command ((decode_op2 w hop).symm.trans h)
    exact packW_eq_of_fields hop hRsv hF rfl hB hC
  · obtain ⟨⟨hRsv, hF, hA, hB⟩, ⟨⟩⟩ := checked_eq_command ((decode_op3 w hop).symm.trans h)
    exact packW_eq_of_fields hop hRsv hF hA hB rfl
  · obtain ⟨⟨hRsv, hF⟩, ⟨⟩⟩ := checked_eq_command ((decode_op4 w hop).symm.trans h)
    exact packW_eq_of_fields hop hRsv hF rfl rfl rfl
  · obtain ⟨⟨hRsv, hC⟩, hcmd⟩ := checked_eq_command ((decode_op5 w hop).symm.trans h)
    split_ifs at hcmd with hF <;> cases hcmd
    · exact packW_eq_of_fields hop hRsv hF (fieldRaw_high w).symm (fieldRaw_low w).symm hC
    · exact packW_eq_of_fields hop hRsv (fieldF_eq_one hF) (fieldRaw_high w).symm (fieldRaw_low w).symm hC
  · obtain ⟨⟨hRsv, hC⟩, hcmd⟩ := checked_eq_command ((decode_op6 w hop).symm.trans h)
    split_ifs at hcmd with hF <;> cases hcmd
    · exact packW_eq_of_fields hop hRsv hF (fieldRaw_high w).symm (fieldRaw_low w).symm hC
    · exact packW_eq_of_fields hop hRsv (fieldF_eq_one hF) (fieldRaw_high w).symm (fieldRaw_low w).symm hC
  · obtain ⟨⟨hRsv, hF, hA, hB, hC⟩, ⟨⟩⟩ := checked_eq_command ((decode_op7 w hop).symm.trans h)
    exact packW_eq_of_fields hop hRsv hF hA hB hC
  · rw [decode_reservedOp w hop] at h
    cases h

theorem decode_eq_command_iff (w : Word) (i : Instr) : decode w = .command i ↔ encode i = w :=
  ⟨encode_of_decode, fun h => h ▸ decode_encode i⟩

/-! ### Rows of the opcode table: a match under a mask -/

/-- A word agrees with a match under a mask exactly when it is the match with the word's own bits outside the mask. -/
theorem and_eq_iff_or_eq {w mask m : Word} (hm : m &&& mask = m) : w &&& mask = m ↔ m ||| (w &&& ~~~mask) = w := by
  have hsplit : (w &&& mask) ||| (w &&& ~~~mask) = w := by
    rw [← BitVec.and_or_distrib_left, BitVec.or_not_self, BitVec.and_allOnes]
  refine ⟨fun h => by rw [← h, hsplit], fun h => ?_⟩
  rw [← h, BitVec.and_or_distrib_right, hm, BitVec.and_assoc, BitVec.not_and_self]
  simp

/-- A field shifted back into place is the word's own bits under the mask of that field. -/
theorem extract_shiftLeft (w : Word) (start len : Nat) (h : start + len ≤ 32) :
    (w.extractLsb' start len).zeroExtend 32 <<< start = w &&& BitVec.ofNat 32 ((2 ^ len - 1) <<< start) := by
  apply BitVec.eq_of_getLsbD_eq
  intro i hi
  rw [BitVec.getLsbD_and, getLsbD_mask start len i hi]
  simp only [BitVec.zeroExtend, BitVec.getLsbD_shiftLeft, BitVec.getLsbD_setWidth, BitVec.getLsbD_extractLsb']
  grind

/-- Field C stands in place: it is the word's own low byte (30_encoding.md R61). -/
theorem extract_low_byte (w : Word) : (w.extractLsb' 0 8).zeroExtend 32 = w &&& 0x000000FF := by
  have h := extract_shiftLeft w 0 8 (by decide)
  rwa [BitVec.shiftLeft_zero] at h

/-- A row of the table: a command whose word is the match with the word's own bits outside the mask. -/
theorem and_eq_iff_decode {w mask m : Word} {i : Instr} (hm : m &&& mask = m) (hi : encode i = m ||| (w &&& ~~~mask)) :
    w &&& mask = m ↔ decode w = .command i := by
  rw [decode_eq_command_iff, hi]
  exact and_eq_iff_or_eq hm

/-- The row of a scaler command, whose operand is RAW (30_encoding.md R64). -/
theorem scaler_row {w m : Word} {i : Instr} (hm : m &&& 0xFF0000FF = m) (hi : encode i = rawWord m (fieldRaw w)) :
    w &&& 0xFF0000FF = m ↔ decode w = .command i := by
  refine and_eq_iff_decode hm (hi.trans ?_)
  exact congrArg (m ||| ·) (extract_shiftLeft w 8 16 (by decide))

/-- The row of a command with no operand: its word alone. -/
theorem eq_iff_decode (w : Word) {m : Word} {i : Instr} (hi : encode i = m) : w = m ↔ decode w = .command i := by
  rw [decode_eq_command_iff, hi, eq_comm]

/-! ### The assembler -/

/-- A line is its word when its operands are in range, and nothing otherwise (30_encoding.md R70). -/
theorem assemble_eq_ite {l : AsmLine} {w : Word} {P : Prop} [Decidable P] (hwf : l.wf = true ↔ P)
    (hw : P → AsmLine.words l = [w]) : assemble l = if P then some [w] else none := by
  rw [assemble]
  by_cases hP : P
  · rw [if_pos (hwf.mpr hP), if_pos hP, hw hP]
  · rw [if_neg (mt hwf.mp hP), if_neg hP]

theorem byteInRange_iff (n : Nat) : byteInRange n = true ↔ n ≤ 0xFF := decide_eq_true_iff

theorem rawInRange_iff (n : Nat) : rawInRange n = true ↔ n ≤ 0xFFFF := decide_eq_true_iff

theorem wordInRange_iff (n : Nat) : wordInRange n = true ↔ n ≤ 0xFFFFFFFF := decide_eq_true_iff

/-- Format W with three byte operands, as one number (30_encoding.md R60). -/
theorem packW_ofNat (op : BitVec 4) (f : BitVec 1) {a b c : Nat} (ha : a ≤ 0xFF) (hb : b ≤ 0xFF) (hc : c ≤ 0xFF) :
    packW op 0 f (BitVec.ofNat 8 a) (BitVec.ofNat 8 b) (BitVec.ofNat 8 c) =
      BitVec.ofNat 32 (op.toNat * 0x10000000 + f.toNat * 0x1000000 + a * 0x10000 + b * 0x100 + c) := by
  have hop := op.isLt
  have hf := f.isLt
  apply BitVec.eq_of_toNat_eq
  rw [packW_toNat]
  simp only [BitVec.ofNat_eq_ofNat, BitVec.toNat_ofNat]
  omega

/-- Format W with a RAW operand, as one number (30_encoding.md R63). -/
theorem packW_ofNat_raw (op : BitVec 4) (f : BitVec 1) {r : Nat} (hr : r ≤ 0xFFFF) :
    packW op 0 f ((BitVec.ofNat 16 r).extractLsb' 8 8) ((BitVec.ofNat 16 r).extractLsb' 0 8) 0 =
      BitVec.ofNat 32 (op.toNat * 0x10000000 + f.toNat * 0x1000000 + r * 0x100) := by
  have hop := op.isLt
  have hf := f.isLt
  apply BitVec.eq_of_toNat_eq
  rw [packW_toNat]
  simp only [BitVec.extractLsb'_toNat, BitVec.ofNat_eq_ofNat, BitVec.toNat_ofNat, Nat.shiftRight_eq_div_pow]
  omega

/-! ### The obligations -/

/-- Settles O10, by the round trip of each command. -/
theorem decodeOfEncodeIsTheCommand : Obligations.DecodeOfEncodeIsTheCommand := decode_encode

/-- Settles O11, by the fields of the word for each opcode. -/
theorem encodeOfDecodeIsTheWord : Obligations.EncodeOfDecodeIsTheWord := fun _ _ => encode_of_decode

/-- Settles O9, by the one word of each command and the mask of its row. -/
theorem decodeAgreesWithTheOpcodeTable : Obligations.DecodeAgreesWithTheOpcodeTable := by
  intro w
  refine ⟨eq_iff_decode w rfl, eq_iff_decode w rfl, and_eq_iff_decode (by decide) ?_, and_eq_iff_decode (by decide) ?_,
    and_eq_iff_decode (by decide) ?_, scaler_row (by decide) (encode_scaleTF32 _), scaler_row (by decide) (encode_scaleTFix _),
    scaler_row (by decide) (encode_scaleRhF32 _), scaler_row (by decide) (encode_scaleRhFix _), eq_iff_decode w rfl⟩
  · rw [encode_crcFeed, extract_shiftLeft w 16 8 (by decide)]
    rfl
  · rw [encode_crcCheck, extract_low_byte]
    rfl
  · rw [encode_crcVal2, extract_low_byte, extract_shiftLeft w 16 8 (by decide), extract_shiftLeft w 8 8 (by decide),
      BitVec.or_assoc, BitVec.or_assoc, ← BitVec.and_or_distrib_left, ← BitVec.and_or_distrib_left]
    rfl

/-- Settles O6: each word is the encoding of its command. -/
theorem tableWordsDecode : Obligations.TableWordsDecode :=
  ⟨decode_encode .nop, decode_encode .crcInit, decode_encode (.crcFeed 0x66), decode_encode (.crcCheck 0xFA),
    decode_encode (.crcVal2 0x66 0x05 0xFA), decode_encode (.scaleTF32 0x6605), decode_encode (.scaleTFix 0x6605),
    decode_encode (.scaleRhF32 0x7C80), decode_encode (.scaleRhFix 0x7C80), decode_encode .clrStatus⟩

/-- Settles O58: each line's word is format W as one number, where its operands are in range. -/
theorem assemblerEncodesAndNeverTruncates : Obligations.AssemblerEncodesAndNeverTruncates := by
  refine ⟨rfl, rfl, rfl, fun a => ?_, fun c => ?_, fun a b c => ?_, fun r => ?_, fun r => ?_, fun r => ?_, fun r => ?_,
    fun w => ?_⟩
  · refine assemble_eq_ite (byteInRange_iff a) fun ha => ?_
    exact congrArg (fun w => [w]) (packW_ofNat 0x2 0 ha (Nat.zero_le _) (Nat.zero_le _))
  · refine assemble_eq_ite (byteInRange_iff c) fun hc => ?_
    exact congrArg (fun w => [w]) (packW_ofNat 0x3 0 (Nat.zero_le _) (Nat.zero_le _) hc)
  · refine assemble_eq_ite ?_ fun ⟨ha, hb, hc⟩ => ?_
    · simp only [AsmLine.wf, Bool.and_eq_true, byteInRange_iff, and_assoc]
    · exact congrArg (fun w => [w]) (packW_ofNat 0x4 0 ha hb hc)
  · exact assemble_eq_ite (rawInRange_iff r) fun hr => congrArg (fun w => [w]) (packW_ofNat_raw 0x5 0 hr)
  · exact assemble_eq_ite (rawInRange_iff r) fun hr => congrArg (fun w => [w]) (packW_ofNat_raw 0x5 1 hr)
  · exact assemble_eq_ite (rawInRange_iff r) fun hr => congrArg (fun w => [w]) (packW_ofNat_raw 0x6 0 hr)
  · exact assemble_eq_ite (rawInRange_iff r) fun hr => congrArg (fun w => [w]) (packW_ofNat_raw 0x6 1 hr)
  · exact assemble_eq_ite (wordInRange_iff w) fun _ => rfl

end Sys2Proof.Machine
end

section
/-! PROOFS. Commands and steps: the frame of each command, what no command reads, what a step on any access answers, and the
error invariant (10_state.md, 20_memory.md, 60_exceptions.md, 70_reset_and_hazards.md). -/

namespace Sys2Proof.Machine

open Sys2Proof.Claims

/-! ### The frame of each command, seen through the register window -/

theorem readsAlikeExcept_refl (s : State) : ReadsAlikeExcept [] s s := fun _ _ => rfl

theorem readsAlikeExcept_setCrc (v : Byte) (s : State) : ReadsAlikeExcept [.crc] s (setCrc v s) := by
  intro view hview
  cases view with
  | crc => simp at hview
  | _ => rfl

theorem readsAlikeExcept_setRes (v : Word) (s : State) : ReadsAlikeExcept [.res] s (setRes v s) := by
  intro view hview
  cases view with
  | res => simp at hview
  | _ => rfl

theorem readsAlikeExcept_setMatch (b : Bool) (s : State) : ReadsAlikeExcept [.status] s (setMatch b s) := by
  intro view hview
  cases view with
  | status => simp at hview
  | _ => rfl

theorem readsAlikeExcept_clearFlags (s : State) : ReadsAlikeExcept [.status] s (clearFlags s) := by
  intro view hview
  cases view with
  | status => simp at hview
  | _ => rfl

/-- Two writes after each other change the views of both. -/
theorem readsAlikeExcept_trans {l l' : List View} {s t u : State} (h : ReadsAlikeExcept l s t) (h' : ReadsAlikeExcept l' t u) :
    ReadsAlikeExcept (l ++ l') s u := by
  intro v hv
  rw [List.mem_append, not_or] at hv
  exact (h' v hv.2).trans (h v hv.1)

/-! ### What no command reads, and which commands write RES -/

/-- A command but clr.status does to a state what it does to it with another ERR and ECAUSE (60_exceptions.md R137). -/
theorem exec_errorSide {i : Instr} {s t : State} (hi : i ≠ .clrStatus) (h : exec i s = .next t) (e : Bool) (c : BitVec 4) :
    exec i { s with err := e, ecause := c } = .next { t with err := e, ecause := c } := by
  cases i with
  | clrStatus => exact absurd rfl hi
  | _ => cases h; rfl

/-- The commands that write RES (10_state.md R24). -/
theorem exec_res_changed {i : Instr} {s t : State} (h : exec i s = .next t) (hne : t.res ≠ s.res) :
    ∃ raw, i = .scaleTF32 raw ∨ i = .scaleTFix raw ∨ i = .scaleRhF32 raw ∨ i = .scaleRhFix raw := by
  cases i with
  | scaleTF32 raw => exact ⟨raw, .inl rfl⟩
  | scaleTFix raw => exact ⟨raw, .inr (.inl rfl)⟩
  | scaleRhF32 raw => exact ⟨raw, .inr (.inr (.inl rfl))⟩
  | scaleRhFix raw => exact ⟨raw, .inr (.inr (.inr rfl))⟩
  | _ => cases h; exact absurd rfl hne

/-! ### The error invariant -/

/-- Clear flags meet the invariant (10_state.md R26, R27). -/
theorem inv_of_clear {s : State} (hE : s.err = false) (hC : s.ecause = 0x0) : s.Inv :=
  ⟨.inl hC, iff_of_true hE hC⟩

/-- A recorded cause meets the invariant: it is 0x1 or 0x2 (60_exceptions.md R132). -/
theorem inv_of_recorded {s : State} {cause : CmdCause} (hE : s.err = true) (hC : s.ecause = cause.code) : s.Inv := by
  unfold State.Inv
  rw [hE, hC]
  cases cause <;> decide

/-- The invariant speaks of ERR and ECAUSE alone. -/
theorem inv_of_same_error {s t : State} (hs : s.Inv) (hE : t.err = s.err) (hC : t.ecause = s.ecause) : t.Inv := by
  unfold State.Inv
  rwa [hE, hC]

/-! ### What a step on any access answers -/

/-- A read that is not 4 bytes wide and aligned gets a bus error (20_memory.md R43). -/
theorem performRead_wrong {off : Int} {n : Width} (hw : 0 ≤ off ∧ off < 32) (h : n ≠ .w4 ∨ off % 4 ≠ 0) (s : State) :
    performRead off n s = .next (answer .busError s) := by
  rw [performRead_eq, if_pos hw, if_neg (not_and_or.mpr h)]

/-- A write that is not 4 bytes wide and aligned gets a bus error (20_memory.md R43). -/
theorem performWrite_wrong {off : Int} {d : WriteData} (hw : 0 ≤ off ∧ off < 32) (h : d.width ≠ .w4 ∨ off % 4 ≠ 0)
    (s : State) : performWrite off d s = .next (answer .busError s) := by
  rw [performWrite_eq, if_pos hw]
  by_cases h0 : off = 0
  · subst h0
    rw [if_pos rfl]
    cases d with
    | b4 w => exact absurd h (by simp [WriteData.width])
    | _ => rfl
  · rw [if_neg h0, if_neg (not_and_or.mpr h)]

theorem performRead_completes {off : Int} (n : Width) (hw : 0 ≤ off ∧ off < 32) (s : State) :
    ∃ t, performRead off n s = .next t ∧ t.pending = s.pending := by
  rw [performRead_eq, if_pos hw]
  exact ⟨_, rfl, rfl⟩

/-- The write of any word to CMD completes and leaves what the host does next (70_reset_and_hazards.md R155). -/
theorem runCommandWord_completes (w : Word) (s : State) : ∃ t, runCommandWord w s = .next t ∧ t.pending = s.pending := by
  obtain ⟨i, t, -, ht, hrun⟩ | ⟨cause, -, hrun⟩ := runCommandWord_cases w s
  · obtain ⟨u, hu, hpending, -⟩ := exec_completes i s
    obtain rfl : u = t := by rw [hu] at ht; cases ht; rfl
    exact ⟨_, hrun, hpending⟩
  · exact ⟨_, hrun, rfl⟩

theorem performWrite_completes {off : Int} (d : WriteData) (hw : 0 ≤ off ∧ off < 32) (s : State) :
    ∃ t, performWrite off d s = .next t ∧ t.pending = s.pending := by
  rw [performWrite_eq, if_pos hw]
  by_cases h0 : off = 0
  · rw [if_pos h0]
    cases d with
    | b4 w => exact runCommandWord_completes w s
    | _ => exact ⟨_, rfl, rfl⟩
  · rw [if_neg h0]
    exact ⟨_, rfl, rfl⟩

/-! ### The obligations -/

/-- Settles O23: each command is one of the named writes, or two after each other. -/
theorem commandsChangeOnlyTheirOwnViews : Obligations.CommandsChangeOnlyTheirOwnViews := by
  intro s t i h
  cases i with
  | nop => cases h; exact ⟨rfl, rfl, readsAlikeExcept_refl s⟩
  | crcInit => cases h; exact ⟨rfl, rfl, readsAlikeExcept_setCrc _ s⟩
  | crcFeed a => cases h; exact ⟨rfl, rfl, readsAlikeExcept_setCrc _ s⟩
  | crcCheck c => cases h; exact ⟨rfl, rfl, readsAlikeExcept_setMatch _ s⟩
  | crcVal2 a b c =>
    cases h
    exact ⟨rfl, rfl, readsAlikeExcept_trans (readsAlikeExcept_setCrc _ s) (readsAlikeExcept_setMatch _ _)⟩
  | scaleTF32 raw => cases h; exact ⟨rfl, rfl, readsAlikeExcept_setRes _ s⟩
  | scaleTFix raw => cases h; exact ⟨rfl, rfl, readsAlikeExcept_setRes _ s⟩
  | scaleRhF32 raw => cases h; exact ⟨rfl, rfl, readsAlikeExcept_setRes _ s⟩
  | scaleRhFix raw => cases h; exact ⟨rfl, rfl, readsAlikeExcept_setRes _ s⟩
  | clrStatus => cases h; exact ⟨rfl, rfl, readsAlikeExcept_clearFlags s⟩

/-- Settles O26: every command completes, and no command but clr.status reads or writes ERR or ECAUSE. -/
theorem anErrorBlocksNoLaterCommand : Obligations.AnErrorBlocksNoLaterCommand := by
  intro i s e c hi
  obtain ⟨t, ht, -⟩ := exec_completes i s
  exact ⟨t, ht, exec_errorSide hi ht e c⟩

/-- Settles O27: crc.check, crc.val2 and clr.status write MATCH whatever it was, and the others leave it. -/
theorem matchGatesNoCommand : Obligations.MatchGatesNoCommand := by
  intro i s b
  cases i with
  | crcCheck c => exact ⟨_, _, rfl, rfl, rfl, rfl, rfl, rfl, .inl rfl⟩
  | crcVal2 a b c => exact ⟨_, _, rfl, rfl, rfl, rfl, rfl, rfl, .inl rfl⟩
  | clrStatus => exact ⟨_, _, rfl, rfl, rfl, rfl, rfl, rfl, .inl rfl⟩
  | _ => exact ⟨_, _, rfl, rfl, rfl, rfl, rfl, rfl, .inr ⟨rfl, rfl⟩⟩

/-- Settles O38, by the inversion of a step and of `exec` at RES. -/
theorem onlyScalersAndResetChangeRes : Obligations.OnlyScalersAndResetChangeRes := by
  intro s t h hne
  obtain ⟨-, hres, -⟩ | ⟨hn, -⟩ | ⟨i, u, hn, hu, -, hres, -⟩ | ⟨cause, -, -, hres, -⟩ := step_items_cases h
  · exact absurd hres hne
  · exact .inl hn
  · obtain ⟨raw, rfl | rfl | rfl | rfl⟩ := exec_res_changed hu (hres ▸ hne)
    · exact .inr ⟨raw, .inl hn⟩
    · exact .inr ⟨raw, .inr (.inl hn)⟩
    · exact .inr ⟨raw, .inr (.inr (.inl hn))⟩
    · exact .inr ⟨raw, .inr (.inr (.inr hn))⟩
  · exact absurd hres hne

/-- Settles O43: a step clears the error, records the first cause, keeps a recorded one, or leaves both. -/
theorem everyStepKeepsTheErrorInvariant : Obligations.EveryStepKeepsTheErrorInvariant := by
  intro s t hs h
  obtain hn | ⟨cause, hn⟩ | ⟨hE, hC⟩ := step_error_cases h
  · obtain ⟨hE, hC⟩ := error_cleared h hn
    exact inv_of_clear hE hC
  · obtain ⟨hE, hC⟩ := error_recorded h hn
    by_cases he : s.err = true
    · rw [if_pos he] at hC
      exact inv_of_same_error hs (hE.trans he.symm) hC
    · rw [if_neg he] at hC
      exact inv_of_recorded hE hC
  · exact inv_of_same_error hs hE hC

/-- Settles O44: the reset state has its flags clear. -/
theorem resetMeetsTheErrorInvariant : Obligations.ResetMeetsTheErrorInvariant := inv_of_clear rfl rfl

/-- Settles O28, by what a wrong read and a wrong write answer. -/
theorem wrongAccessesGetABusError : Obligations.WrongAccessesGetABusError :=
  fun s _ h0 h32 => ⟨fun _ h => performRead_wrong ⟨h0, h32⟩ h s, fun _ h => performWrite_wrong ⟨h0, h32⟩ h s⟩

/-- Settles O34: neither access is one of the window. -/
theorem accessesOutsideTheWindowAreRefused : Obligations.AccessesOutsideTheWindowAreRefused := by
  intro s off hout
  have hnot : ¬ (0 ≤ off ∧ off < 32) := by omega
  refine ⟨fun n => ?_, fun d => ?_⟩
  · rw [step_withEvent, performEvent, performRead_eq, if_neg hnot]
  · rw [step_withEvent, performEvent, performWrite_eq, if_neg hnot]

/-- Settles O37: each event leads on, and takes itself alone from what is to come. -/
theorem noAccessInTheWindowStopsTheBlock : Obligations.NoAccessInTheWindowStopsTheBlock := by
  intro s hread hwrite
  cases hp : s.pending with
  | nil => exact ⟨s, step_nil hp, hp⟩
  | cons e rest =>
    rw [step_cons hp]
    cases e with
    | read off n => exact performRead_completes n (hread off n rest hp) _
    | write off d => exact performWrite_completes d (hwrite off d rest hp) _
    | reset => exact ⟨_, rfl, rfl⟩

/-- Settles O36, by the rule for a step with nothing to come. -/
theorem theBlockIsIdleWithoutAnAccess : Obligations.TheBlockIsIdleWithoutAnAccess := fun _ => step_nil

/-- Settles O35: the base is 32 times the slot, and the offset of an address is counted from it. -/
theorem windowStandsAtAnAlignedBase : Obligations.WindowStandsAtAnAlignedBase := by
  refine ⟨dvd_mul_right 32 Config.blockSlot, fun off => ?_⟩
  have hoff : offsetOf (Config.blockBase + off) = off := by
    rw [offsetOf, Nat.cast_add, add_sub_cancel_left]
  exact ⟨fun n => congrArg (HostEvent.read · n) hoff, fun d => congrArg (HostEvent.write · d) hoff⟩

/-- Settles O5, by the three kinds of first event of a launch. -/
theorem launchWithoutResetIsRefused : Obligations.LaunchWithoutResetIsRefused :=
  ⟨fun _ _ _ => rfl, fun _ _ _ => rfl, fun _ => rfl⟩

/-- Settles O7: the step is the command at the rest of what is to come, which completes. -/
theorem stepRunsTheDecodedCommand : Obligations.StepRunsTheDecodedCommand := by
  intro s w rest i hp hd
  obtain ⟨t, ht, -⟩ := exec_completes i { s with pending := rest }
  rw [step_cons hp]
  refine (runCommandWord_command hd _).trans ?_
  rw [ht]
  rfl

/-- Settles O3: whatever the word, its write leads on to the reset, which sets every item. -/
theorem resetAfterACommandLeavesTheResetState : Obligations.ResetAfterACommandLeavesTheResetState := by
  intro s w rest
  obtain ⟨t, ht, hpending⟩ := runCommandWord_completes w { s with pending := .reset :: rest }
  have hreset : step t = .next { State.reset with pending := rest } := step_cons hpending
  exact (run_next 1 ((step_writeCmd s w _).trans ht)).trans (run_next 0 hreset)

/-- Settles O4, by the two commands one after the other. -/
theorem initThenClearResetsAllButRes : Obligations.InitThenClearResetsAllButRes := by
  intro s rest
  exact (run_command 1 decode_encode_crcInit (exec_crcInit s) _).trans
    (run_command 0 decode_encode_clrStatus (exec_clrStatus { s with crc := 0x00, reply := some .done }) rest)

/-- Settles O33: the read comes in the state the command leaves, but for the answer, which no view shows. -/
theorem aReadAfterACommandSeesItsResults : Obligations.AReadAfterACommandSeesItsResults := by
  intro s w i v hd
  obtain ⟨t, ht, hpending, -⟩ := exec_completes i s
  have hread : step { t with pending := .read v.offset .w4 :: s.pending, reply := some .done } =
      .next { t with reply := some (.data (viewWord v t)) } := by
    rw [← hpending, ← viewWord_answer v .done t]
    exact step_readView v (answer .done t)
  exact ⟨t, ht, (run_command 1 hd ht _).trans (run_next 0 hread)⟩

end Sys2Proof.Machine
end

section
/-! PROOFS. The laws of the CRC-8 function (40_crc.md R80, R88): linear in the payload, one to one in the register and in each
byte, and the remainder of the message over GF(2). -/

namespace Sys2Proof.Machine

open Sys2Proof.Claims

/-! ### Linear and one to one -/

/-- Payloads of one length fed into two registers: the exclusive or of the payloads fed into that of the registers is the
exclusive or of the results (40_crc.md R88). -/
theorem foldl_crc8Feed_zipWith_xor (x y : List Byte) (hlen : x.length = y.length) (c d : Byte) :
    (List.zipWith (· ^^^ ·) x y).foldl crc8Feed (c ^^^ d) = x.foldl crc8Feed c ^^^ y.foldl crc8Feed d := by
  induction x generalizing y c d with
  | nil => cases y with
    | nil => rfl
    | cons b y => cases hlen
  | cons a x ih => cases y with
    | nil => cases hlen
    | cons b y =>
      rw [List.zipWith_cons_cons, List.foldl_cons, List.foldl_cons, List.foldl_cons, crc8Feed_xor]
      exact ih y (Nat.succ.inj hlen) _ _

theorem crc8Feed_injective_register (b : Byte) : Function.Injective fun c => crc8Feed c b :=
  fun _ _ h => (BitVec.xor_left_inj b).mp (crc8Rounds_injective 8 h)

theorem crc8Feed_injective_byte (c : Byte) : Function.Injective (crc8Feed c) :=
  fun _ _ h => (BitVec.xor_right_inj c).mp (crc8Rounds_injective 8 h)

/-- A second byte that differs changes the checksum of a frame. -/
theorem crc8_pair_ne_second (a : Byte) {b b' : Byte} (h : b ≠ b') : crc8 [a, b] ≠ crc8 [a, b'] :=
  (crc8Feed_injective_byte _).ne h

/-- A first byte that differs changes the checksum of a frame. -/
theorem crc8_pair_ne_first {a a' : Byte} (b : Byte) (h : a ≠ a') : crc8 [a, b] ≠ crc8 [a', b] :=
  (crc8Feed_injective_register b).ne ((crc8Feed_injective_byte 0).ne h)

/-- A flipped bit makes another byte. -/
theorem xor_flip_ne (b : Byte) {k : Nat} (hk : k < 8) : b ^^^ 1#8 <<< k ≠ b := by
  intro h
  have hbit := congrArg (fun v => BitVec.getLsbD v k) h
  simp [hk] at hbit

/-- crc.val2 sets MATCH to whether the checksum is that of the two bytes (40_crc.md R86). -/
theorem exec_crcVal2_matchFlag {a b c : Byte} {m : Bool} (h : decide (crc8 [a, b] = c) = m) (s : State) :
    ∃ t, exec (.crcVal2 a b c) s = .next t ∧ t.matchFlag = m :=
  ⟨_, exec_crcVal2 a b c s, h⟩

/-! ### The polynomial of a byte -/

open Polynomial

theorem bytePoly_zero : bytePoly 0 = 0 := by
  simp [bytePoly]

/-- The exclusive or of bytes is the sum of their polynomials, for 1 + 1 = 0 in GF(2). -/
theorem bytePoly_xor (a b : Byte) : bytePoly (a ^^^ b) = bytePoly a + bytePoly b := by
  rw [bytePoly, bytePoly, bytePoly, ← Finset.sum_add_distrib]
  refine Finset.sum_congr rfl fun i _ => ?_
  rw [BitVec.getLsbD_xor]
  cases a.getLsbD i <;> cases b.getLsbD i <;> simp [CharTwo.add_self_eq_zero]

/-- A byte's polynomial has a degree below 8. -/
theorem degree_bytePoly_lt (b : Byte) : (bytePoly b).degree < 8 := by
  refine (degree_sum_le _ _).trans_lt ((Finset.sup_lt_iff (WithBot.bot_lt_coe 8)).mpr fun i hi => ?_)
  split_ifs
  · rw [degree_X_pow]
    exact_mod_cast Finset.mem_range.mp hi
  · rw [degree_zero]
    exact WithBot.bot_lt_coe 8

/-- Shifting a byte in 8 bits multiplies its polynomial by x and drops the top term. -/
theorem bytePoly_mul_X (c : Byte) : bytePoly c * X = bytePoly (c <<< 1) + if c.getLsbD 7 then X ^ 8 else 0 := by
  have hterm (i : Nat) : (if c.getLsbD i then (X : (ZMod 2)[X]) ^ i else 0) * X =
      if c.getLsbD i then X ^ (i + 1) else 0 := by
    rw [ite_mul, zero_mul, pow_succ]
  have hshift (i : Nat) (hi : i ∈ Finset.range 7) : (c <<< 1).getLsbD (i + 1) = c.getLsbD i := by
    have := Finset.mem_range.mp hi
    simp
    omega
  have hlow : (∑ i ∈ Finset.range 7, if (c <<< 1).getLsbD (i + 1) then (X : (ZMod 2)[X]) ^ (i + 1) else 0) =
      ∑ i ∈ Finset.range 7, if c.getLsbD i then X ^ (i + 1) else 0 :=
    Finset.sum_congr rfl fun i hi => by rw [hshift i hi]
  have hbottom : (c <<< 1).getLsbD 0 = false := by simp
  rw [bytePoly, bytePoly, Finset.sum_mul, Finset.sum_congr rfl fun i _ => hterm i, Finset.sum_range_succ,
    Finset.sum_range_succ' _ 7, hlow, hbottom, if_neg Bool.false_ne_true, add_zero]

/-- 0x31 is what 0x131 has under x^8 (40_crc.md R80). -/
theorem X_pow_8_add_bytePoly_crcPoly : X ^ 8 + bytePoly Config.crcPoly = crcPolynomial := by
  have hbits : bytePoly Config.crcPoly = 1 + X ^ 4 + X ^ 5 := by
    simp [bytePoly, Config.crcPoly, Finset.sum_range_succ]
  rw [hbits, crcPolynomial]
  ring

/-- A round multiplies by x, up to a multiple of 0x131 (40_crc.md R80). -/
theorem crcPolynomial_dvd_round (c : Byte) : crcPolynomial ∣ bytePoly c * X - bytePoly (crc8Round c) := by
  rw [bytePoly_mul_X, crc8Round]
  split_ifs
  · rw [bytePoly_xor, add_sub_add_left_eq_sub, CharTwo.sub_eq_add, X_pow_8_add_bytePoly_crcPoly]
  · simp

/-- Rounds multiply by x each, up to a multiple of 0x131. -/
theorem crcPolynomial_dvd_rounds (n : Nat) (c : Byte) :
    crcPolynomial ∣ bytePoly c * X ^ n - bytePoly (crc8Rounds n c) := by
  induction n generalizing c with
  | zero => simp [crc8Rounds]
  | succ n ih =>
    have hround := (crcPolynomial_dvd_round c).mul_right (X ^ n)
    rw [crc8Rounds, show bytePoly c * X ^ (n + 1) - bytePoly (crc8Rounds n (crc8Round c)) =
      (bytePoly c * X - bytePoly (crc8Round c)) * X ^ n +
        (bytePoly (crc8Round c) * X ^ n - bytePoly (crc8Rounds n (crc8Round c))) by ring]
    exact hround.add (ih _)

/-- Feeding a byte adds it and multiplies by x^8, up to a multiple of 0x131 (40_crc.md R80). -/
theorem crcPolynomial_dvd_feed (c b : Byte) :
    crcPolynomial ∣ (bytePoly c + bytePoly b) * X ^ 8 - bytePoly (crc8Feed c b) := by
  rw [← bytePoly_xor]
  exact crcPolynomial_dvd_rounds 8 _

/-! ### The polynomial of a message -/

theorem messagePoly_append_singleton (bytes : List Byte) (b : Byte) :
    messagePoly (bytes ++ [b]) = messagePoly bytes * X ^ 8 + bytePoly b := by
  rw [messagePoly, List.foldl_append]
  rfl

/-- The CRC of a message is the message times x^8, up to a multiple of 0x131. -/
theorem crcPolynomial_dvd_message (bytes : List Byte) :
    crcPolynomial ∣ messagePoly bytes * X ^ 8 - bytePoly (crc8 bytes) := by
  induction bytes using List.reverseRecOn with
  | nil =>
    rw [crc8_nil, bytePoly_zero, messagePoly, List.foldl_nil, zero_mul, sub_zero]
    exact dvd_zero _
  | append_singleton bytes b ih =>
    have hfeed := crcPolynomial_dvd_feed (crc8 bytes) b
    rw [crc8_append, messagePoly_append_singleton, List.foldl_cons, List.foldl_nil,
      show (messagePoly bytes * X ^ 8 + bytePoly b) * X ^ 8 - bytePoly (crc8Feed (crc8 bytes) b) =
        (messagePoly bytes * X ^ 8 - bytePoly (crc8 bytes)) * X ^ 8 +
          ((bytePoly (crc8 bytes) + bytePoly b) * X ^ 8 - bytePoly (crc8Feed (crc8 bytes) b)) by ring]
    exact (ih.mul_right _).add hfeed

theorem degree_crcPolynomial : crcPolynomial.degree = 8 := by
  unfold crcPolynomial
  compute_degree!

theorem crcPolynomial_monic : crcPolynomial.Monic := by
  unfold crcPolynomial
  monicity!

/-! ### The obligations -/

/-- Settles O46: the CRC is the message times x^8 up to a multiple of 0x131, and its degree is below 8. -/
theorem crcIsThePolynomialRemainder : Obligations.CrcIsThePolynomialRemainder := by
  intro bytes
  have hsmall : bytePoly (crc8 bytes) %ₘ crcPolynomial = bytePoly (crc8 bytes) :=
    (modByMonic_eq_self_iff crcPolynomial_monic).mpr (degree_crcPolynomial ▸ degree_bytePoly_lt _)
  rw [modByMonic_eq_of_dvd_sub crcPolynomial_monic (crcPolynomial_dvd_message bytes), hsmall]

/-- Settles O47: a register fed with itself is 0x00. -/
theorem residueOfAnIntactPayloadIsZero : Obligations.ResidueOfAnIntactPayloadIsZero := by
  intro data
  rw [crc8_append]
  exact crc8Feed_self (crc8 data)

/-- Settles O48, by linearity from the zero register. -/
theorem crcIsLinear : Obligations.CrcIsLinear :=
  fun x y hlen => foldl_crc8Feed_zipWith_xor x y hlen 0 0

/-- Settles O49: a flipped bit makes another byte, and another byte another checksum. -/
theorem everySingleBitFlipIsDetected : Obligations.EverySingleBitFlipIsDetected := by
  intro s d0 d1 k hk flip
  refine ⟨?_, ?_, ?_, ?_⟩ <;> refine exec_crcVal2_matchFlag ?_ s
  · exact decide_eq_true rfl
  · exact decide_eq_false (crc8_pair_ne_first d1 (xor_flip_ne d0 hk))
  · exact decide_eq_false (crc8_pair_ne_second d0 (xor_flip_ne d1 hk))
  · exact decide_eq_false (xor_flip_ne _ hk).symm

/-- Settles O50: feeding is one to one on finitely many registers. -/
theorem feedingAByteIsABijection : Obligations.FeedingAByteIsABijection :=
  fun b => Finite.injective_iff_bijective.mp (crc8Feed_injective_register b)

end Sys2Proof.Machine
end

section
/-! PROOFS. `round_f32` of every rational below the overflow threshold (00_scope.md R11): the edge of overflow, and zero. -/

namespace Sys2Proof.Machine

open Sys2Proof.Claims

/-- In the top binade a value half a step or more below 2^24 steps keeps its significand at 24 bits. -/
theorem significand_lt {a d : Nat} (hd : 0 < d) (hlt : (a : ℚ) / d < (2 ^ 24 - 1 / 2) * 2 ^ quantumExp a d) :
    significand a d < 2 ^ 24 := by
  have hsteps := (div_lt_iff₀ (by positivity : (0 : ℚ) < 2 ^ quantumExp a d)).mpr hlt
  have herr := (abs_le.mp (significand_spec a d hd).1).2
  have : (significand a d : ℚ) < (2 ^ 24 : Nat) := by
    push_cast
    linarith
  exact_mod_cast this

/-- A value below 2^128 - 2^103, half a step past the largest finite number, rounds to a finite number. -/
theorem roundMagnitude_lt_of_lt_threshold {a d : Nat} (ha : 0 < a) (hd : 0 < d)
    (hlt : (a : ℚ) / d < 2 ^ 128 - 2 ^ 103) : roundMagnitude a d < 0x7F800000 := by
  have hq := quantumExp_le ha hd (k := 128) (by omega) (hlt.trans (by norm_num))
  have hs := (significand_range a d ha hd).1
  unfold roundMagnitude
  rw [if_neg ha.ne']
  obtain htop | hbelow : quantumExp a d = 104 ∨ quantumExp a d ≤ 103 := by omega
  · have hs24 : significand a d < 2 ^ 24 := significand_lt hd (by rw [htop]; exact hlt.trans_eq (by norm_num))
    omega
  · omega

/-- Zero is encoded as 0x00000000, and no other value is as near it. -/
theorem roundF32_zero_nearestEven (d : Nat) : NearestEven (roundF32 0 d) 0 := by
  have hvalue : f32ToReal 0 = some 0 := by decide +kernel
  refine ⟨0, hvalue, fun w' v' _ => ?_⟩
  rw [sub_zero, sub_zero, abs_zero]
  exact ⟨abs_nonneg v', fun heq hne => absurd (abs_eq_zero.mp heq.symm) hne⟩

/-! ### The obligations -/

/-- Settles O57: below the threshold the result is finite, and a finite result is nearest, ties to even. -/
theorem roundF32IsNearestTiesToEven : Obligations.RoundF32IsNearestTiesToEven := by
  intro n d hd hlt
  obtain rfl | hn := eq_or_ne n 0
  · rw [Int.cast_zero, zero_div]
    exact roundF32_zero_nearestEven d
  · rw [abs_intCast_div] at hlt
    exact roundF32_nearestEven hn hd (roundMagnitude_lt_of_lt_threshold (Int.natAbs_pos.mpr hn) hd hlt)

end Sys2Proof.Machine
end
